-- ==== Sys2Proof/Word.lean ====
section
/-! DEFINITION. The quantities of the machine: bytes, 16-bit words, and the small fields an instruction carries
(spec/00_scope.md R7 and R10: every value is unsigned, bit 0 is the least significant bit). -/

namespace Sys2Proof

/-- A byte: a memory cell, a V register, a timer, the immediate `nn` (R7). -/
abbrev Byte := BitVec 8

/-- A 16-bit word: PC, I, a stack entry, an instruction word (R7). -/
abbrev Word := BitVec 16

/-- The 12-bit immediate `nnn` (R92). -/
abbrev Imm12 := BitVec 12

/-- A 4-bit field of an instruction word read as a number, 0 to 15 (R92). -/
abbrev Nibble := Fin 16

/-- The number of a V register, 0 to 15 (R20, R95). -/
abbrev Reg := Fin 16

/-- A key code, 0x0 to 0xF; a larger code is no transaction of this hardware (R39, R242). -/
abbrev Key := Fin 16

/-- V[F], the general register that doubles as the flag (R28). -/
abbrev regF : Reg := 15

end Sys2Proof
end

