-- ==== Sys2Proof/Config.lean ====
section
/-! DEFINITION. What an implementation fixes (the parameters of spec/00_scope.md R8), and the free values. -/

namespace Sys2Proof

/-- The parameters fixed at construction and never changed afterwards (R8, R53, R302). -/
structure Config where
  /-- `STACK_DEPTH`: how many entries the call stack holds; a positive integer the spec leaves OPEN (R8, decision D9,
  entry U1).  log 1: carried in the state, so every statement is about every depth. -/
  stackDepth : Nat
  deriving DecidableEq, Repr

/-- The configuration of `State.reset`: the default depth the spec names, 16 (R8, D9; log 1). -/
def Config.default : Config := { stackDepth := 16 }

/-- FREE VALUE.  The byte the random source delivers at its `k`-th free draw: any value 0 to 255, under no law (R180,
decision D22, entry U2; log 2).  It has no body, so nothing can be proved of the byte drawn. -/
opaque Config.randomByte : Nat → Byte

end Sys2Proof
end

