-- ==== Sys2Proof/Syntax.lean ====
section
/-! DEFINITION. The 34 instructions, one constructor per row of spec/opcode_table.json (spec/30_encoding.md R97), in the
table's order, each with the operands its pattern carries (R92 to R95).  The unknown-opcode no-op is no instruction: it is
what the cycle does with every other word (R104, R126).  An operand's type has exactly the values its field can hold, so
every term stands for a word: all 16 register numbers are legal in both positions (R95), immediates are unsigned and
unscaled (R94), and no field of a known instruction is reserved (R106). -/

namespace Sys2Proof

/-- One instruction.  The comments give the pattern and the spec's mnemonic. -/
inductive Instr where
  /-- 00E0 `CLS` -/
  | cls
  /-- 00EE `RET` -/
  | ret
  /-- 1nnn `JP nnn` -/
  | jp (nnn : Imm12)
  /-- 2nnn `CALL nnn` -/
  | call (nnn : Imm12)
  /-- 3xnn `SE Vx,nn` -/
  | seVxNn (x : Reg) (nn : Byte)
  /-- 4xnn `SNE Vx,nn` -/
  | sneVxNn (x : Reg) (nn : Byte)
  /-- 5xy0 `SE Vx,Vy` -/
  | seVxVy (x y : Reg)
  /-- 6xnn `LD Vx,nn` -/
  | ldVxNn (x : Reg) (nn : Byte)
  /-- 7xnn `ADD Vx,nn` -/
  | addVxNn (x : Reg) (nn : Byte)
  /-- 8xy0 `LD Vx,Vy` -/
  | ldVxVy (x y : Reg)
  /-- 8xy1 `OR Vx,Vy` -/
  | orVxVy (x y : Reg)
  /-- 8xy2 `AND Vx,Vy` -/
  | andVxVy (x y : Reg)
  /-- 8xy3 `XOR Vx,Vy` -/
  | xorVxVy (x y : Reg)
  /-- 8xy4 `ADD Vx,Vy` -/
  | addVxVy (x y : Reg)
  /-- 8xy5 `SUB Vx,Vy` -/
  | subVxVy (x y : Reg)
  /-- 8xy6 `SHR Vx`; `y` is encoded and not used (R175), kept here so that no bit of the word is lost -/
  | shrVx (x y : Reg)
  /-- 8xy7 `SUBN Vx,Vy` -/
  | subnVxVy (x y : Reg)
  /-- 8xyE `SHL Vx`; `y` is encoded and not used (R177) -/
  | shlVx (x y : Reg)
  /-- 9xy0 `SNE Vx,Vy` -/
  | sneVxVy (x y : Reg)
  /-- Annn `LD I,nnn` -/
  | ldINnn (nnn : Imm12)
  /-- Bnnn `JP V0,nnn` -/
  | jpV0Nnn (nnn : Imm12)
  /-- Cxnn `RND Vx,nn` -/
  | rndVxNn (x : Reg) (nn : Byte)
  /-- Dxyn `DRW Vx,Vy,n` -/
  | drwVxVyN (x y : Reg) (n : Nibble)
  /-- Ex9E `SKP Vx` -/
  | skpVx (x : Reg)
  /-- ExA1 `SKNP Vx` -/
  | sknpVx (x : Reg)
  /-- Fx07 `LD Vx,DT` -/
  | ldVxDT (x : Reg)
  /-- Fx0A `LD Vx,K` -/
  | ldVxK (x : Reg)
  /-- Fx15 `LD DT,Vx` -/
  | ldDTVx (x : Reg)
  /-- Fx18 `LD ST,Vx` -/
  | ldSTVx (x : Reg)
  /-- Fx1E `ADD I,Vx` -/
  | addIVx (x : Reg)
  /-- Fx29 `LD F,Vx` -/
  | ldFVx (x : Reg)
  /-- Fx33 `LD B,Vx` -/
  | ldBVx (x : Reg)
  /-- Fx55 `LD [I],Vx` -/
  | ldMemVx (x : Reg)
  /-- Fx65 `LD Vx,[I]` -/
  | ldVxMem (x : Reg)
  deriving DecidableEq, Repr

end Sys2Proof
end

