-- ==== Sys2Proof/WellFormed.lean ====
section
/-! DEFINITION. The checks on raw input.  A term of `Instr` needs none (its operand types are exactly its fields: see
Syntax.lean); what the outside world hands over raw does: an instruction word, a program, a configuration. -/

namespace Sys2Proof

/-- A row of the opcode map: a word `w` is the row's instruction iff `w and mask = pattern` (R97). -/
structure OpcodeRow where
  pattern : Word
  mask : Word
  deriving DecidableEq, Repr

/-- Does the word match the row in all the bits of the row's mask (R97, R103)? -/
def OpcodeRow.hit (r : OpcodeRow) (w : Word) : Bool := w &&& r.mask == r.pattern

/-- The rows of R97 numbered 1 to 19: groups 0 to 9. -/
def opcodeRowsLow : List OpcodeRow :=
  [ ⟨0x00E0, 0xFFFF⟩, ⟨0x00EE, 0xFFFF⟩, ⟨0x1000, 0xF000⟩, ⟨0x2000, 0xF000⟩, ⟨0x3000, 0xF000⟩, ⟨0x4000, 0xF000⟩,
    ⟨0x5000, 0xF00F⟩, ⟨0x6000, 0xF000⟩, ⟨0x7000, 0xF000⟩, ⟨0x8000, 0xF00F⟩, ⟨0x8001, 0xF00F⟩, ⟨0x8002, 0xF00F⟩,
    ⟨0x8003, 0xF00F⟩, ⟨0x8004, 0xF00F⟩, ⟨0x8005, 0xF00F⟩, ⟨0x8006, 0xF00F⟩, ⟨0x8007, 0xF00F⟩, ⟨0x800E, 0xF00F⟩,
    ⟨0x9000, 0xF00F⟩ ]

/-- The rows of R97 numbered 20 to 34: groups A to F. -/
def opcodeRowsHigh : List OpcodeRow :=
  [ ⟨0xA000, 0xF000⟩, ⟨0xB000, 0xF000⟩, ⟨0xC000, 0xF000⟩, ⟨0xD000, 0xF000⟩, ⟨0xE09E, 0xF0FF⟩, ⟨0xE0A1, 0xF0FF⟩,
    ⟨0xF007, 0xF0FF⟩, ⟨0xF00A, 0xF0FF⟩, ⟨0xF015, 0xF0FF⟩, ⟨0xF018, 0xF0FF⟩, ⟨0xF01E, 0xF0FF⟩, ⟨0xF029, 0xF0FF⟩,
    ⟨0xF033, 0xF0FF⟩, ⟨0xF055, 0xF0FF⟩, ⟨0xF065, 0xF0FF⟩ ]

/-- The opcode map of R97, in the table's order. -/
def opcodeRows : List OpcodeRow := opcodeRowsLow ++ opcodeRowsHigh

/-- Is the word one of the 34 instructions: does it match a row of the table (R103)?  Every other word is an unknown
opcode (R104). -/
def Word.wellFormed (w : Word) : Bool := opcodeRows.any (fun r => r.hit w)

/-- The place of an instruction's row in the opcode map, counted from 0 (R97 counts from 1). -/
def Instr.rowIndex : Instr → Nat
  | .cls => 0
  | .ret => 1
  | .jp _ => 2
  | .call _ => 3
  | .seVxNn _ _ => 4
  | .sneVxNn _ _ => 5
  | .seVxVy _ _ => 6
  | .ldVxNn _ _ => 7
  | .addVxNn _ _ => 8
  | .ldVxVy _ _ => 9
  | .orVxVy _ _ => 10
  | .andVxVy _ _ => 11
  | .xorVxVy _ _ => 12
  | .addVxVy _ _ => 13
  | .subVxVy _ _ => 14
  | .shrVx _ _ => 15
  | .subnVxVy _ _ => 16
  | .shlVx _ _ => 17
  | .sneVxVy _ _ => 18
  | .ldINnn _ => 19
  | .jpV0Nnn _ => 20
  | .rndVxNn _ _ => 21
  | .drwVxVyN _ _ _ => 22
  | .skpVx _ => 23
  | .sknpVx _ => 24
  | .ldVxDT _ => 25
  | .ldVxK _ => 26
  | .ldDTVx _ => 27
  | .ldSTVx _ => 28
  | .addIVx _ => 29
  | .ldFVx _ => 30
  | .ldBVx _ => 31
  | .ldMemVx _ => 32
  | .ldVxMem _ => 33

/-- The largest program: 4096 - 0x200 = 3584 bytes (R7, R308). -/
def maxProgramBytes : Nat := 3584

/-- Is the byte sequence one that `load` accepts (R308)? -/
def Program.wellFormed (bytes : List Byte) : Bool := bytes.length ≤ maxProgramBytes

/-- Is `STACK_DEPTH` a positive integer (R8)? -/
def Config.wellFormed (c : Config) : Bool := 0 < c.stackDepth

end Sys2Proof
end

