-- ==== Sys2Proof/Decode.lean ====
section
/-! DEFINITION. From words to instructions and back (spec/30_encoding.md).  The decoder follows the hierarchical dispatch
of R98 with the exact patterns of R97 (R103: strict decoding, conflict C2).  It is total: every word is one of the 34
instructions or an unknown opcode (R107), and it reads nothing but the word (R125). -/

namespace Sys2Proof

/-! ### The five fields (R92) -/

/-- The primary opcode, `word[15:12]`. -/
def fieldOp (w : Word) : Nibble := (w.extractLsb' 12 4).toFin

/-- The field `x`, `word[11:8]`. -/
def fieldX (w : Word) : Nibble := (w.extractLsb' 8 4).toFin

/-- The field `y`, `word[7:4]`. -/
def fieldY (w : Word) : Nibble := (w.extractLsb' 4 4).toFin

/-- The field `n`, `word[3:0]`. -/
def fieldN (w : Word) : Nibble := (w.extractLsb' 0 4).toFin

/-- The field `nn`, `word[7:0]`. -/
def fieldNN (w : Word) : Byte := w.extractLsb' 0 8

/-- The field `nnn`, `word[11:0]`. -/
def fieldNNN (w : Word) : Imm12 := w.extractLsb' 0 12

/-! ### The decoder -/

/-- Why bits are no instruction. -/
inductive DecodeReject where
  /-- the word matches no row of the opcode table (R104) -/
  | unknownOpcode (word : Word)
  /-- fewer than the two bytes of an instruction (R90) -/
  | tooFewBytes
  deriving DecidableEq, Repr

/-- Group 0: the exact words 00E0 and 00EE (R99). -/
def decodeGroup0 (w : Word) : Except DecodeReject Instr :=
  if w = 0x00E0 then .ok .cls
  else if w = 0x00EE then .ok .ret
  else .error (.unknownOpcode w)

/-- Group 5: SE Vx,Vy when `word[3:0] = 0` (R102). -/
def decodeGroup5 (w : Word) : Except DecodeReject Instr :=
  if fieldN w = 0 then .ok (.seVxVy (fieldX w) (fieldY w)) else .error (.unknownOpcode w)

/-- Group 8: secondary dispatch on `word[3:0]` (R100). -/
def decodeGroup8 (w : Word) : Except DecodeReject Instr :=
  match (fieldN w).val with
  | 0x0 => .ok (.ldVxVy (fieldX w) (fieldY w))
  | 0x1 => .ok (.orVxVy (fieldX w) (fieldY w))
  | 0x2 => .ok (.andVxVy (fieldX w) (fieldY w))
  | 0x3 => .ok (.xorVxVy (fieldX w) (fieldY w))
  | 0x4 => .ok (.addVxVy (fieldX w) (fieldY w))
  | 0x5 => .ok (.subVxVy (fieldX w) (fieldY w))
  | 0x6 => .ok (.shrVx (fieldX w) (fieldY w))
  | 0x7 => .ok (.subnVxVy (fieldX w) (fieldY w))
  | 0xE => .ok (.shlVx (fieldX w) (fieldY w))
  | _ => .error (.unknownOpcode w)

/-- Group 9: SNE Vx,Vy when `word[3:0] = 0` (R102). -/
def decodeGroup9 (w : Word) : Except DecodeReject Instr :=
  if fieldN w = 0 then .ok (.sneVxVy (fieldX w) (fieldY w)) else .error (.unknownOpcode w)

/-- Group E: secondary dispatch on `word[7:0]` (R101). -/
def decodeGroupE (w : Word) : Except DecodeReject Instr :=
  match (fieldNN w).toNat with
  | 0x9E => .ok (.skpVx (fieldX w))
  | 0xA1 => .ok (.sknpVx (fieldX w))
  | _ => .error (.unknownOpcode w)

/-- Group F: secondary dispatch on `word[7:0]` (R101). -/
def decodeGroupF (w : Word) : Except DecodeReject Instr :=
  match (fieldNN w).toNat with
  | 0x07 => .ok (.ldVxDT (fieldX w))
  | 0x0A => .ok (.ldVxK (fieldX w))
  | 0x15 => .ok (.ldDTVx (fieldX w))
  | 0x18 => .ok (.ldSTVx (fieldX w))
  | 0x1E => .ok (.addIVx (fieldX w))
  | 0x29 => .ok (.ldFVx (fieldX w))
  | 0x33 => .ok (.ldBVx (fieldX w))
  | 0x55 => .ok (.ldMemVx (fieldX w))
  | 0x65 => .ok (.ldVxMem (fieldX w))
  | _ => .error (.unknownOpcode w)

/-- The instruction a word stands for, dispatched on its top nibble (R98), or its rejection by name (R104). -/
def decodeWord (w : Word) : Except DecodeReject Instr :=
  match (fieldOp w).val with
  | 0x0 => decodeGroup0 w
  | 0x1 => .ok (.jp (fieldNNN w))
  | 0x2 => .ok (.call (fieldNNN w))
  | 0x3 => .ok (.seVxNn (fieldX w) (fieldNN w))
  | 0x4 => .ok (.sneVxNn (fieldX w) (fieldNN w))
  | 0x5 => decodeGroup5 w
  | 0x6 => .ok (.ldVxNn (fieldX w) (fieldNN w))
  | 0x7 => .ok (.addVxNn (fieldX w) (fieldNN w))
  | 0x8 => decodeGroup8 w
  | 0x9 => decodeGroup9 w
  | 0xA => .ok (.ldINnn (fieldNNN w))
  | 0xB => .ok (.jpV0Nnn (fieldNNN w))
  | 0xC => .ok (.rndVxNn (fieldX w) (fieldNN w))
  | 0xD => .ok (.drwVxVyN (fieldX w) (fieldY w) (fieldN w))
  | 0xE => decodeGroupE w
  | _ => decodeGroupF w

/-- An instruction word from its two bytes, the byte at the lower address in the high half (R62, R91). -/
def wordOfBytes (hi lo : Byte) : Word := BitVec.ofNat 16 (hi.toNat * 256 + lo.toNat)

/-- Decoding a byte sequence: the first instruction and the bytes after it.  Every instruction is exactly two bytes
(R90). -/
def decodeBytes : List Byte → Except DecodeReject (Instr × List Byte)
  | hi :: lo :: rest => (decodeWord (wordOfBytes hi lo)).map (fun i => (i, rest))
  | _ => .error .tooFewBytes

/-! ### The encoder (R110) -/

/-- `op*4096 + x*256 + y*16 + n`: a word from its four nibbles (R110). -/
def wordOfNibbles (op x y n : Nibble) : Word :=
  BitVec.ofNat 16 (op.val * 4096 + x.val * 256 + y.val * 16 + n.val)

/-- A word from an opcode, a register field and `nn` (formats XNN and X of R93). -/
def wordOfXNN (op x : Nibble) (nn : Byte) : Word :=
  BitVec.ofNat 16 (op.val * 4096 + x.val * 256 + nn.toNat)

/-- A word from an opcode and `nnn` (format NNN of R93). -/
def wordOfNNN (op : Nibble) (nnn : Imm12) : Word := BitVec.ofNat 16 (op.val * 4096 + nnn.toNat)

/-- The word of an instruction, from the patterns of R97. -/
def encode : Instr → Word
  | .cls => 0x00E0
  | .ret => 0x00EE
  | .jp nnn => wordOfNNN 0x1 nnn
  | .call nnn => wordOfNNN 0x2 nnn
  | .seVxNn x nn => wordOfXNN 0x3 x nn
  | .sneVxNn x nn => wordOfXNN 0x4 x nn
  | .seVxVy x y => wordOfNibbles 0x5 x y 0x0
  | .ldVxNn x nn => wordOfXNN 0x6 x nn
  | .addVxNn x nn => wordOfXNN 0x7 x nn
  | .ldVxVy x y => wordOfNibbles 0x8 x y 0x0
  | .orVxVy x y => wordOfNibbles 0x8 x y 0x1
  | .andVxVy x y => wordOfNibbles 0x8 x y 0x2
  | .xorVxVy x y => wordOfNibbles 0x8 x y 0x3
  | .addVxVy x y => wordOfNibbles 0x8 x y 0x4
  | .subVxVy x y => wordOfNibbles 0x8 x y 0x5
  | .shrVx x y => wordOfNibbles 0x8 x y 0x6
  | .subnVxVy x y => wordOfNibbles 0x8 x y 0x7
  | .shlVx x y => wordOfNibbles 0x8 x y 0xE
  | .sneVxVy x y => wordOfNibbles 0x9 x y 0x0
  | .ldINnn nnn => wordOfNNN 0xA nnn
  | .jpV0Nnn nnn => wordOfNNN 0xB nnn
  | .rndVxNn x nn => wordOfXNN 0xC x nn
  | .drwVxVyN x y n => wordOfNibbles 0xD x y n
  | .skpVx x => wordOfXNN 0xE x 0x9E
  | .sknpVx x => wordOfXNN 0xE x 0xA1
  | .ldVxDT x => wordOfXNN 0xF x 0x07
  | .ldVxK x => wordOfXNN 0xF x 0x0A
  | .ldDTVx x => wordOfXNN 0xF x 0x15
  | .ldSTVx x => wordOfXNN 0xF x 0x18
  | .addIVx x => wordOfXNN 0xF x 0x1E
  | .ldFVx x => wordOfXNN 0xF x 0x29
  | .ldBVx x => wordOfXNN 0xF x 0x33
  | .ldMemVx x => wordOfXNN 0xF x 0x55
  | .ldVxMem x => wordOfXNN 0xF x 0x65

/-- The high byte of a word, stored at the lower address (R91). -/
def highByte (w : Word) : Byte := w.extractLsb' 8 8

/-- The low byte of a word, stored at the higher address (R91). -/
def lowByte (w : Word) : Byte := w.extractLsb' 0 8

/-- A word's two bytes as the hardware stores them, high byte first (R91, R110). -/
def bytesOfWord (w : Word) : List Byte := [highByte w, lowByte w]

/-- The two bytes of an instruction (R110). -/
def encodeBytes (i : Instr) : List Byte := bytesOfWord (encode i)

/-- The word whose low `nbits` bits are those of `w` and whose other bits are 0: an instruction as the opcode table numbers
its bits (bit 0 least significant; an instruction is one 16-bit word, R90). -/
def tableWord (nbits w : Nat) : Word := BitVec.ofNat 16 (w % 2 ^ nbits)

/-- The instruction this decoder reads from a word given in the opcode table's bit numbering, laid out in memory as the
hardware stores it. -/
def decodeTableWord (nbits w : Nat) : Option Instr :=
  match decodeBytes (bytesOfWord (tableWord nbits w)) with
  | .ok (i, _) => some i
  | .error _ => none

end Sys2Proof
end

