-- ==== Sys2Proof/Machine/State.lean ====
section
/-! DEFINITION. The state of the machine: all of spec/10_state.md's tuple, as plain data, and the few fields the model adds
to hold the core's environment (its parameters, the transactions still to come, the random source) and its error output.
The reset state is that of R52 and R300. -/

namespace Sys2Proof.Machine

/-- A fatal error a cycle can raise, with what it carries (R260 codes 1 to 3, R261 to R263). -/
inductive FatalError where
  /-- an access to an address outside 0 to 4095; carries the lowest invalid address of the access (R261) -/
  | memoryOutOfBounds (addr : Nat)
  /-- 2nnn executed while the stack holds `STACK_DEPTH` entries (R262) -/
  | stackOverflow
  /-- 00EE executed while the stack is empty (R263) -/
  | stackUnderflow
  deriving DecidableEq, Repr

/-- What a transaction can put on the error channel (R13, R260, R272). -/
inductive Report where
  /-- a fatal error of a cycle (R275) -/
  | fatal (e : FatalError)
  /-- the non-fatal report of a word that matches no instruction (R264) -/
  | unknownOpcode (word : Word)
  /-- `load` was given more than 3584 bytes (R265) -/
  | programTooLarge
  deriving DecidableEq, Repr

/-- The run status of the CPU (R40, R236). -/
inductive Status where
  /-- `cycle` fetches and executes -/
  | running
  /-- entered by Fx0A; left by the next key release, which writes `V[target]`, or by `reset` (R41, conflict C8) -/
  | waitingForKey (target : Reg)
  /-- a cycle raised a fatal error; left only by `reset`; keeps the fault record (R51, R278) -/
  | faulted (e : FatalError)
  deriving DecidableEq, Repr

/-- The state-changing transactions of the core's interface (R15).  Each is atomic and none overlaps another (R320). -/
inductive Transaction where
  /-- the CPU's step (R120) -/
  | cycle
  /-- the timer tick (R250) -/
  | updateTimers
  /-- a key goes down (R240) -/
  | onKeyPressed (code : Key)
  /-- a key goes up (R241) -/
  | onKeyReleased (code : Key)
  /-- the consumer of the pixel buffer clears the redraw flag (R218) -/
  | clearRedraw
  /-- a program is copied to 0x200 (R308) -/
  | load (bytes : List Byte)
  /-- everything returns to its initial value (R300) -/
  | reset
  deriving DecidableEq, Repr

/-- Memory as data: the bytes that differ from their reset contents, by rising address.  The operations, and what an
unlisted address reads as, are in Ops.lean (R46, R50). -/
abbrev Memory := List Host.Cell

/-- The pixel buffer: 32 rows of 64 one-bit cells.  Column `c` of row `r` is bit `c` of entry `r`, which is the cell the
spec numbers `r*64 + c` (R36). -/
abbrev Pixels := Vector (BitVec 64) 32

/-- The machine's state. -/
structure State where
  /-- V[0] to V[15], the general registers; V[15] is the flag V[F] (R20, R28) -/
  v : Vector Byte 16
  /-- I, the index register (R30) -/
  index : Word
  /-- PC, the program counter (R24) -/
  pc : Word
  /-- the call stack, its TOP ENTRY FIRST; its length is `depth` (R32) -/
  stack : List Word
  /-- DT, the delay timer (R42) -/
  dt : Byte
  /-- ST, the sound timer (R43) -/
  st : Byte
  /-- the 4096 bytes of memory (R46) -/
  mem : Memory
  /-- the 2048 pixel cells (R36) -/
  pix : Pixels
  /-- the sixteen key states, true while pressed (R39) -/
  keys : Vector Bool 16
  /-- the run status, with the pending key registration or the fault record (R40, R41, R51) -/
  status : Status
  /-- the redraw flag (R38) -/
  redraw : Bool
  /-- the last-opcode latch (R45) -/
  lastOpcode : Word
  /-- MODEL'S OWN: the parameters fixed at construction; no step changes them (R8, R53; log 1) -/
  config : Config
  /-- MODEL'S OWN: the error channel's output at the completion of the latest transaction (R13, R272; log 3) -/
  report : Option Report
  /-- MODEL'S OWN: the transactions the environment issues next, the nearest first; when it is empty the driver goes on
  issuing `cycle` (R9, R15, R271; log 4) -/
  schedule : List Transaction
  /-- MODEL'S OWN: bytes supplied to the pluggable random source, the next first; when it is empty a draw is a free value
  (R180, D22; log 2) -/
  byteSource : List Byte
  /-- MODEL'S OWN: how many free draws have been made (log 2) -/
  draws : Nat
  deriving DecidableEq, Repr

/-- Why the machine stops with a fault.  It never does: every error the spec names is a next state with its record in
`status` and `report` (R13, R276; log 5), so there is no constructor. -/
inductive Fault where
  deriving DecidableEq, Repr

/-- Why the model has no meaning for an instruction. -/
inductive Refusal where
  /-- raised by `exec` for an instruction that has no meaning yet; safe.  No arm of this model answers it. -/
  | notModelled (mnemonic : String)
  deriving DecidableEq, Repr

/-- The outcome of an instruction or a step. -/
abbrev Result := Host.Outcome State Fault Refusal

/-- The state right after `reset` or construction: the values of R52, R300 and R302; memory lists nothing, that is, the
font and zeros (R50).  The model's own fields: the default parameters, nothing reported, nothing scheduled, no byte
supplied, no draw made (logs 1 to 4). -/
def State.reset : State where
  v := Vector.replicate 16 0
  index := 0
  pc := 0x200
  stack := []
  dt := 0
  st := 0
  mem := []
  pix := Vector.replicate 32 0
  keys := Vector.replicate 16 false
  status := .running
  redraw := false
  lastOpcode := 0
  config := Config.default
  report := none
  schedule := []
  byteSource := []
  draws := 0

end Sys2Proof.Machine
end

