-- ==== Sys2Proof/Machine/Ops.lean ====
section
/-! DEFINITION. The operations the instructions share: memory, registers, the call stack, the pixel cells, the random
source, and raising a fatal error (spec/20_memory.md, spec/10_state.md, spec/60_exceptions.md). -/

namespace Sys2Proof.Machine

/-! ### Memory -/

/-- The 80 font bytes, 16 glyphs of 5 bytes, glyph `d` at `d*5` (R48, R49; from general knowledge, log 6). -/
def fontBytes : List Byte :=
  [ 0xF0, 0x90, 0x90, 0x90, 0xF0,  0x20, 0x60, 0x20, 0x20, 0x70 ] ++
  [ 0xF0, 0x10, 0xF0, 0x80, 0xF0,  0xF0, 0x10, 0xF0, 0x10, 0xF0 ] ++
  [ 0x90, 0x90, 0xF0, 0x10, 0x10,  0xF0, 0x80, 0xF0, 0x10, 0xF0 ] ++
  [ 0xF0, 0x80, 0xF0, 0x90, 0xF0,  0xF0, 0x10, 0x20, 0x40, 0x40 ] ++
  [ 0xF0, 0x90, 0xF0, 0x90, 0xF0,  0xF0, 0x90, 0xF0, 0x10, 0xF0 ] ++
  [ 0xF0, 0x90, 0xF0, 0x90, 0x90,  0xE0, 0x90, 0xE0, 0x90, 0xE0 ] ++
  [ 0xF0, 0x80, 0x80, 0x80, 0xF0,  0xE0, 0x90, 0x90, 0x90, 0xE0 ] ++
  [ 0xF0, 0x80, 0xF0, 0x80, 0xF0,  0xF0, 0x80, 0xF0, 0x80, 0x80 ]

/-- What an unlisted address reads as: its reset contents, the font at 0x000 to 0x04F and 0 elsewhere (R50, R52). -/
def unlistedByte (addr : Nat) : Byte := if addr < 0x50 then fontBytes.getD addr 0 else 0

/-- The byte at an address (R61, R67): the listed one, or what an unlisted address reads as. -/
def Memory.read : Memory → Nat → Byte
  | [], addr => unlistedByte addr
  | (a, b) :: m, addr => if addr = a then b else Memory.read m addr

/-- A cell put at its place among cells of rising address. -/
def Memory.insert (c : Host.Cell) : Memory → Memory
  | [] => [c]
  | d :: m => if c.1 < d.1 then c :: d :: m else d :: Memory.insert c m

/-- Memory with the byte `v` at `addr` (R61, R67).  Writing what an unlisted address reads as removes the entry. -/
def Memory.write (m : Memory) (addr : Nat) (v : Byte) : Memory :=
  let others := m.filter (fun c => c.1 ≠ addr)
  if v = unlistedByte addr then others else Memory.insert (addr, v) others

/-- The canonical form from an address on: rising addresses inside 0 to 0xFFF, and no entry equal to what an unlisted
address reads as. -/
def Memory.wfFrom : Nat → Memory → Bool
  | _, [] => true
  | lo, (a, b) :: m => decide (lo ≤ a) && decide (a ≤ 0xFFF) && decide (b ≠ unlistedByte a) && Memory.wfFrom (a + 1) m

/-- The canonical form, under which equal memories are equal data. -/
def Memory.wf (m : Memory) : Bool := Memory.wfFrom 0 m

/-- `count` bytes from an address on, ascending. -/
def Memory.readBytes (m : Memory) (base : Nat) : Nat → List Byte
  | 0 => []
  | k + 1 => Memory.read m base :: Memory.readBytes m (base + 1) k

/-- Bytes stored from an address on, ascending. -/
def Memory.writeBytes (m : Memory) (base : Nat) : List Byte → Memory
  | [] => m
  | b :: bs => Memory.writeBytes (Memory.write m base b) (base + 1) bs

/-- The one range check of every access (R60, R61, R68): an access to the `count` addresses from `base` on raises
`MemoryOutOfBounds` when one of them is above 0xFFF, with the lowest invalid address of the range (R261).  An access to no
address raises nothing. -/
def rangeError (base count : Nat) : Option FatalError :=
  if 0 < count ∧ 0xFFF < base + count - 1 then some (.memoryOutOfBounds (max base 0x1000)) else none

/-- Read `count` bytes from `base` on, the whole range checked first (R68).  `MemRead(addr, 1)` is the case of one byte. -/
def readBlock (s : State) (base count : Nat) : Except FatalError (List Byte) :=
  match rangeError base count with
  | some e => .error e
  | none => .ok (Memory.readBytes s.mem base count)

/-- Store bytes from `base` on, the whole range checked first (R68): all of them, or none and the error.
`MemWrite(addr, 1, v)` is the case of one byte. -/
def writeBlock (s : State) (base : Nat) (bytes : List Byte) : Except FatalError State :=
  match rangeError base bytes.length with
  | some e => .error e
  | none => .ok { s with mem := Memory.writeBytes s.mem base bytes }

/-! ### Registers -/

/-- `V[x]` (R11, R21). -/
def State.reg (s : State) (x : Reg) : Byte := s.v.get x

/-- `V[x] <- b` (R11, R22). -/
def State.setReg (s : State) (x : Reg) (b : Byte) : State := { s with v := s.v.set x.val b x.isLt }

/-- The registers V[0] to V[k-1], in order. -/
def State.regs (s : State) (k : Nat) : List Byte := s.v.toList.take k

/-- Bytes put into V[i], V[i+1], and so on; bytes past V[15] go nowhere. -/
def State.setRegs (s : State) (i : Nat) : List Byte → State
  | [] => s
  | b :: bs => if h : i < 16 then State.setRegs (s.setReg ⟨i, h⟩ b) (i + 1) bs else s

/-! ### The call stack -/

/-- `Push(a)`: `StackOverflow` when the stack holds `STACK_DEPTH` entries, otherwise `a` is the new top (R33). -/
def push (s : State) (a : Word) : Except FatalError State :=
  if s.stack.length < s.config.stackDepth then .ok { s with stack := a :: s.stack } else .error .stackOverflow

/-- `Pop()`: `StackUnderflow` when the stack is empty, otherwise the top entry and the stack without it (R34). -/
def pop (s : State) : Except FatalError (Word × State) :=
  match s.stack with
  | [] => .error .stackUnderflow
  | a :: rest => .ok (a, { s with stack := rest })

/-! ### The program counter -/

/-- A skip: the already advanced PC plus 2 (R123). -/
def skipNext (s : State) : State := { s with pc := s.pc + 2 }

/-- Skip the next instruction when the condition holds. -/
def skipIf (c : Bool) (s : State) : State := if c then skipNext s else s

/-! ### Pixels -/

/-- The linear index of the cell at a column and a row (R36). -/
def pixelIndex (col row : Nat) : Nat := row * 64 + col

/-- `pix[k]`: cell `k` of the buffer. -/
def Pixels.cell (p : Pixels) (k : Nat) : Bool := if h : k / 64 < 32 then (p[k / 64]).getLsbD (k % 64) else false

/-- `pix[k] <- pix[k] xor 1` (R212). -/
def Pixels.toggle (p : Pixels) (k : Nat) : Pixels :=
  if h : k / 64 < 32 then p.set (k / 64) (p[k / 64] ^^^ BitVec.twoPow 64 (k % 64)) else p

/-- Every cell 0 (R210). -/
def blankPixels : Pixels := Vector.replicate 32 0

/-! ### The random source -/

/-- The byte of this execution of Cxnn (R129, R180): the next supplied byte, or a free value; either way each execution has
its own draw (log 2). -/
def drawByte (s : State) : Byte × State :=
  match s.byteSource with
  | b :: rest => (b, { s with byteSource := rest })
  | [] => (Config.randomByte s.draws, { s with draws := s.draws + 1 })

/-! ### Errors: raising one, reporting one, leaving the faulted state -/

/-- TAKING A FATAL ERROR (R275, R276): the error goes out on the error channel and is latched in the status; nothing else
changes.  There is no handler, no saved PC and no mode (R275).  In a fetch the state is the one before the PC advance, in
an execute stage the one after it, which is what each commits. -/
def raiseFatal (e : FatalError) (s : State) : Result :=
  .next { s with status := .faulted e, report := some (.fatal e) }

/-- LEAVING THE FAULTED STATE, which only `reset` does (R278, R300, R301): all the core's state returns to its reset value.
The parameters stay (R302), and so does the environment: the transactions still to come and the random source. -/
def resetCore (s : State) : State :=
  { State.reset with config := s.config, schedule := s.schedule, byteSource := s.byteSource, draws := s.draws }

/-- `report UnknownOpcode(word)`: the non-fatal report (R126, R264). -/
def reportUnknown (w : Word) (s : State) : Result := .next { s with report := some (.unknownOpcode w) }

/-- Go on with a checked operation's answer, or raise its error. -/
def orRaise {α : Type} (s : State) (r : Except FatalError α) (k : α → State) : Result :=
  match r with
  | .ok a => .next (k a)
  | .error e => raiseFatal e s

/-- The numeric code of what the error channel carries (R260); 0 is none. -/
def errorCode : Option Report → Nat
  | none => 0
  | some (.fatal (.memoryOutOfBounds _)) => 1
  | some (.fatal .stackOverflow) => 2
  | some (.fatal .stackUnderflow) => 3
  | some (.unknownOpcode _) => 4
  | some .programTooLarge => 5

end Sys2Proof.Machine
end

