-- ==== Sys2Proof/Machine/Operands.lean ====
section
/-! DEFINITION. Operand forms (spec/30_encoding.md R94, R95, spec/43_index_memory.md R190): a register's value, an
immediate as it stands or widened with zeros, the one addressing mode "index plus offset", the implicit operands. -/

namespace Sys2Proof.Machine

/-- A byte widened to 16 bits with zeros (`zext_16`, R10). -/
def zextByte (b : Byte) : Word := b.setWidth 16

/-- `nnn` widened to 16 bits with zeros (R94). -/
def zextImm12 (nnn : Imm12) : Word := nnn.setWidth 16

/-- The address of the `k`-th byte of a data access: `I + k`, a plain sum reduced modulo nothing (R60, R190). -/
def dataAddr (s : State) (k : Nat) : Nat := s.index.toNat + k

/-- How many registers Fx55 and Fx65 move: V[0] to V[x] (R196, R197). -/
def blockCount (x : Reg) : Nat := x.val + 1

/-- Is the key that a byte names pressed?  A number above 15 names no key and is not pressed; it is not masked (R230,
R232). -/
def keyDown (s : State) (k : Byte) : Bool := if h : k.toNat < 16 then s.keys[k.toNat] else false

/-- The address of the instruction executing, `PC - 2` (R123, R142). -/
def callerAddr (s : State) : Word := s.pc - 2

/-- The three decimal digits of a byte, hundreds first, one a byte (R195). -/
def bcdDigits (b : Byte) : List Byte :=
  [BitVec.ofNat 8 (b.toNat / 100), BitVec.ofNat 8 (b.toNat / 10 % 10), BitVec.ofNat 8 (b.toNat % 10)]

end Sys2Proof.Machine
end

