-- ==== Sys2Proof/Machine/Flags.lean ====
section
/-! DEFINITION. The flag computations (spec/42_alu.md R162): V[F] receives 0x01 or 0x00, always computed from the operand
values before the instruction changes a register.  The collision flag is computed with the sprite, in Display.lean. -/

namespace Sys2Proof.Machine

/-- A flag as V[F] receives it: 0x01 or 0x00 (R162). -/
def flagByte (b : Bool) : Byte := if b then 1 else 0

/-- The carry out of bit 7: the sum of two bytes exceeds 255 (R173). -/
def carryOut (a b : Byte) : Bool := 255 < a.toNat + b.toNat

/-- NOT borrow of `a - b`: 1 when the subtraction does not wrap, equal operands included (R162, R174, R176). -/
def notBorrow (a b : Byte) : Bool := b.toNat ≤ a.toNat

/-- The bit a shift right by one place shifts out: bit 0 (R175). -/
def shiftedOutRight (a : Byte) : Bool := a.getLsbD 0

/-- The bit a shift left by one place shifts out: bit 7 (R177). -/
def shiftedOutLeft (a : Byte) : Bool := a.getLsbD 7

end Sys2Proof.Machine
end

