-- ==== Sys2Proof/Machine/Alu.lean ====
section
/-! DEFINITION. Register loads, arithmetic, logic, shifts and the random byte (spec/42_alu.md).  Byte arithmetic wraps
modulo 256 (R160).  Where an instruction writes both its destination and V[F], the two writes stand in the order of R163,
so with x = F the later one wins. -/

namespace Sys2Proof.Machine

/-- 6xnn LD Vx,nn (R165). -/
def execLdVxNn (x : Reg) (nn : Byte) (s : State) : Result := .next (s.setReg x nn)

/-- 7xnn ADD Vx,nn: no flag, also on a wrap (R166). -/
def execAddVxNn (x : Reg) (nn : Byte) (s : State) : Result := .next (s.setReg x (s.reg x + nn))

/-- 8xy0 LD Vx,Vy (R169). -/
def execLdVxVy (x y : Reg) (s : State) : Result := .next (s.setReg x (s.reg y))

/-- 8xy1 OR Vx,Vy: no flag (R170). -/
def execOrVxVy (x y : Reg) (s : State) : Result := .next (s.setReg x (s.reg x ||| s.reg y))

/-- 8xy2 AND Vx,Vy: no flag (R171). -/
def execAndVxVy (x y : Reg) (s : State) : Result := .next (s.setReg x (s.reg x &&& s.reg y))

/-- 8xy3 XOR Vx,Vy: no flag (R172). -/
def execXorVxVy (x y : Reg) (s : State) : Result := .next (s.setReg x (s.reg x ^^^ s.reg y))

/-- 8xy4 ADD Vx,Vy: the sum, then the carry (R163, R173). -/
def execAddVxVy (x y : Reg) (s : State) : Result :=
  let vx := s.reg x
  let vy := s.reg y
  .next ((s.setReg x (vx + vy)).setReg regF (flagByte (carryOut vx vy)))

/-- 8xy5 SUB Vx,Vy: the not-borrow, then the difference (R163, R174). -/
def execSubVxVy (x y : Reg) (s : State) : Result :=
  let vx := s.reg x
  let vy := s.reg y
  .next ((s.setReg regF (flagByte (notBorrow vx vy))).setReg x (vx - vy))

/-- 8xy6 SHR Vx: the bit shifted out, then V[x] shifted in place; `y` is not used (R163, R175). -/
def execShrVx (x _y : Reg) (s : State) : Result :=
  let vx := s.reg x
  .next ((s.setReg regF (flagByte (shiftedOutRight vx))).setReg x (vx >>> 1))

/-- 8xy7 SUBN Vx,Vy: the not-borrow, then the difference, of the operands exchanged (R163, R176). -/
def execSubnVxVy (x y : Reg) (s : State) : Result :=
  let vx := s.reg x
  let vy := s.reg y
  .next ((s.setReg regF (flagByte (notBorrow vy vx))).setReg x (vy - vx))

/-- 8xyE SHL Vx: the bit shifted out, then V[x] shifted in place; `y` is not used (R163, R177). -/
def execShlVx (x _y : Reg) (s : State) : Result :=
  let vx := s.reg x
  .next ((s.setReg regF (flagByte (shiftedOutLeft vx))).setReg x (vx <<< 1))

/-- Cxnn RND Vx,nn: this execution's own random byte, masked (R129, R180). -/
def execRndVxNn (x : Reg) (nn : Byte) (s : State) : Result :=
  let (byte, s') := drawByte s
  .next (s'.setReg x (byte &&& nn))

end Sys2Proof.Machine
end

