-- ==== Sys2Proof/Machine/Control.lean ====
section
/-! DEFINITION. Control transfer (spec/41_control.md).  PC is the already advanced one (R123), so `PC - 2` is the address
of the instruction executing.  Targets are never aligned, masked or checked here; the next fetch checks (R150). -/

namespace Sys2Proof.Machine

/-- 00EE RET: pop the caller's address, go to the instruction after it (R140). -/
def execRet (s : State) : Result := orRaise s (pop s) (fun popped => { popped.2 with pc := popped.1 + 2 })

/-- 1nnn JP nnn (R141). -/
def execJp (nnn : Imm12) (s : State) : Result := .next { s with pc := zextImm12 nnn }

/-- 2nnn CALL nnn: push the address of this very instruction, go to `nnn` (R142). -/
def execCall (nnn : Imm12) (s : State) : Result :=
  orRaise s (push s (callerAddr s)) (fun pushed => { pushed with pc := zextImm12 nnn })

/-- Bnnn JP V0,nnn: the register is V[0] whatever the word's bits 11 to 8 are; the sum is not reduced to 12 bits (R143). -/
def execJpV0Nnn (nnn : Imm12) (s : State) : Result := .next { s with pc := zextByte (s.reg 0) + zextImm12 nnn }

/-- 3xnn SE Vx,nn (R144). -/
def execSeVxNn (x : Reg) (nn : Byte) (s : State) : Result := .next (skipIf (s.reg x == nn) s)

/-- 4xnn SNE Vx,nn (R145). -/
def execSneVxNn (x : Reg) (nn : Byte) (s : State) : Result := .next (skipIf (s.reg x != nn) s)

/-- 5xy0 SE Vx,Vy (R146). -/
def execSeVxVy (x y : Reg) (s : State) : Result := .next (skipIf (s.reg x == s.reg y) s)

/-- 9xy0 SNE Vx,Vy (R147). -/
def execSneVxVy (x y : Reg) (s : State) : Result := .next (skipIf (s.reg x != s.reg y) s)

end Sys2Proof.Machine
end

