-- ==== Sys2Proof/Machine/Display.lean ====
section
/-! DEFINITION. Clearing the pixel buffer, and the sprite XOR with its collision detector (spec/44_display.md). -/

namespace Sys2Proof.Machine

/-- The buffer and the collision bit while a sprite is drawn. -/
abbrev Drawing := Pixels × Bool

/-- One set sprite bit XORed onto cell `k`: a collision if the cell held 1 just before (R212, R215). -/
def plot (k : Nat) (d : Drawing) : Drawing := (Pixels.toggle d.1 k, d.2 || Pixels.cell d.1 k)

/-- Bit `c` of a sprite row counted from the left: bit 7 is the leftmost column (R214). -/
def spriteBit (b : Byte) (c : Nat) : Bool := b.getLsbD (7 - c)

/-- The cell under sprite column `c` and sprite row `r`: each axis wraps on its own (R213). -/
def spriteCell (x0 y0 c r : Nat) : Nat := pixelIndex ((x0 + c) % 64) ((y0 + r) % 32)

/-- One sprite row: its eight columns, left first (R212). -/
def drawRow (x0 y0 r : Nat) (b : Byte) (d : Drawing) : Drawing :=
  (List.range 8).foldl (fun d c => if spriteBit b c then plot (spriteCell x0 y0 c r) d else d) d

/-- The sprite's rows, top first, from row `r` on (R212). -/
def drawRows (x0 y0 : Nat) : Nat → List Byte → Drawing → Drawing
  | _, [], d => d
  | r, b :: rows, d => drawRows x0 y0 (r + 1) rows (drawRow x0 y0 r b d)

/-- The origin column, `V[x] mod 64` (R213). -/
def originCol (vx : Byte) : Nat := vx.toNat % 64

/-- The origin row, `V[y] mod 32` (R213). -/
def originRow (vy : Byte) : Nat := vy.toNat % 32

/-- A sprite drawn at a position: the new buffer and the collision bit (R212). -/
def drawSprite (vx vy : Byte) (rows : List Byte) (p : Pixels) : Drawing :=
  drawRows (originCol vx) (originRow vy) 0 rows (p, false)

/-- 00E0 CLS: every cell 0; marks redraw (R210). -/
def execCls (s : State) : Result := .next { s with pix := blankPixels, redraw := true }

/-- Dxyn DRW Vx,Vy,n: the position is read before V[F] is written, the collision is written last, redraw is always marked;
with n = 0 nothing is read (R212, R217). -/
def execDrwVxVyN (x y : Reg) (n : Nibble) (s : State) : Result :=
  orRaise s (readBlock s (dataAddr s 0) n.val) (fun rows =>
    let d := drawSprite (s.reg x) (s.reg y) rows s.pix
    { ({ s with pix := d.1 }).setReg regF (flagByte d.2) with redraw := true })

end Sys2Proof.Machine
end

