-- ==== Sys2Proof/Machine/IndexMemory.lean ====
section
/-! DEFINITION. The index register, the BCD converter and the block transfers (spec/43_index_memory.md).  No access
changes I (R190), none of these writes V[F] as a flag, and a block is checked whole before any of it moves (R68). -/

namespace Sys2Proof.Machine

/-- Annn LD I,nnn (R191). -/
def execLdINnn (nnn : Imm12) (s : State) : Result := .next { s with index := zextImm12 nnn }

/-- Fx1E ADD I,Vx: modulo 65536, no flag, no check (R192). -/
def execAddIVx (x : Reg) (s : State) : Result := .next { s with index := s.index + zextByte (s.reg x) }

/-- Fx29 LD F,Vx: five times the whole byte; marks redraw although no pixel changes (R193, conflict C3). -/
def execLdFVx (x : Reg) (s : State) : Result := .next { s with index := zextByte (s.reg x) * 5, redraw := true }

/-- Fx33 LD B,Vx: hundreds, tens, units at I, I+1, I+2 (R195). -/
def execLdBVx (x : Reg) (s : State) : Result := orRaise s (writeBlock s (dataAddr s 0) (bcdDigits (s.reg x))) id

/-- Fx55 LD [I],Vx: V[0] to V[x] stored at I to I+x (R196). -/
def execLdMemVx (x : Reg) (s : State) : Result := orRaise s (writeBlock s (dataAddr s 0) (s.regs (blockCount x))) id

/-- Fx65 LD Vx,[I]: V[0] to V[x] loaded from I to I+x (R197). -/
def execLdVxMem (x : Reg) (s : State) : Result :=
  orRaise s (readBlock s (dataAddr s 0) (blockCount x)) (fun bytes => s.setRegs 0 bytes)

end Sys2Proof.Machine
end

