-- ==== Sys2Proof/Machine/KeypadTimers.lean ====
section
/-! DEFINITION. The key skips, the key wait and the timer instructions (spec/45_keypad_timers.md). -/

namespace Sys2Proof.Machine

/-- Ex9E SKP Vx (R230, R232). -/
def execSkpVx (x : Reg) (s : State) : Result := .next (skipIf (keyDown s (s.reg x)) s)

/-- ExA1 SKNP Vx: skips exactly when SKP would not (R231, R232). -/
def execSknpVx (x : Reg) (s : State) : Result := .next (skipIf (!keyDown s (s.reg x)) s)

/-- Fx07 LD Vx,DT (R245). -/
def execLdVxDT (x : Reg) (s : State) : Result := .next (s.setReg x s.dt)

/-- Fx0A LD Vx,K: wait for a key release; no register changes yet (R235). -/
def execLdVxK (x : Reg) (s : State) : Result := .next { s with status := .waitingForKey x }

/-- Fx15 LD DT,Vx (R246). -/
def execLdDTVx (x : Reg) (s : State) : Result := .next { s with dt := s.reg x }

/-- Fx18 LD ST,Vx (R247). -/
def execLdSTVx (x : Reg) (s : State) : Result := .next { s with st := s.reg x }

end Sys2Proof.Machine
end

