-- ==== Sys2Proof/Machine/Transactions.lean ====
section
/-! DEFINITION. The transactions of the core's interface other than the cycle (spec/00_scope.md R15): the timer tick, the
key events, clearing the redraw flag, program load, reset; and the two read-only outputs.  Each runs in every status
(R236). -/

namespace Sys2Proof.Machine

/-- A timer counted down by one, held at 0 (R250). -/
def countDown (t : Byte) : Byte := if t = 0 then 0 else t - 1

/-- `updateTimers`: both timers, each on its own; nothing else (R250). -/
def updateTimers (s : State) : State := { s with dt := countDown s.dt, st := countDown s.st }

/-- `keys[c] <- b` (R39). -/
def setKey (s : State) (c : Key) (b : Bool) : State := { s with keys := s.keys.set c.val b c.isLt }

/-- `onKeyPressed(c)`: the key's boolean; a press never ends a wait (R240). -/
def onKeyPressed (c : Key) (s : State) : State := setKey s c true

/-- The one-shot end of a key wait: the pending register takes the key's code and the CPU runs again (R241). -/
def resolveWait (c : Key) (s : State) : State :=
  match s.status with
  | .waitingForKey t => { s.setReg t (BitVec.ofNat 8 c.val) with status := .running }
  | .running => s
  | .faulted _ => s

/-- `onKeyReleased(c)`: the key's boolean and, while waiting, the end of the wait, as one transaction (R241). -/
def onKeyReleased (c : Key) (s : State) : State := resolveWait c (setKey s c false)

/-- `clearRedraw`: the redraw flag and nothing else (R218). -/
def clearRedraw (s : State) : State := { s with redraw := false }

/-- Where a program is copied to (R7, R308). -/
def loadAddr : Nat := 0x200

/-- `load(bytes)`: the bytes at 0x200 and nothing else; too many are rejected whole, and the status stays (R265, R308). -/
def load (bytes : List Byte) (s : State) : State :=
  if Program.wellFormed bytes then { s with mem := Memory.writeBytes s.mem loadAddr bytes }
  else { s with report := some .programTooLarge }

/-- What the read-only `snapshot` shows (R44). -/
structure Snapshot where
  pc : Word
  index : Word
  v : Vector Byte 16
  dt : Byte
  st : Byte
  lastOpcode : Word
  deriving DecidableEq, Repr

/-- Read of `snapshot`: the state as it stands between two transactions; it changes nothing (R44). -/
def State.snapshot (s : State) : Snapshot :=
  { pc := s.pc, index := s.index, v := s.v, dt := s.dt, st := s.st, lastOpcode := s.lastOpcode }

/-- Read of `framebuffer`: the 2048 cells in the order of their linear index; it changes nothing (R36, R37). -/
def State.framebuffer (s : State) : List Bool := (List.range 2048).map (fun k => Pixels.cell s.pix k)

end Sys2Proof.Machine
end

