-- ==== Sys2Proof/Machine/Cycle.lean ====
section
/-! DEFINITION. The cycle (spec/40_cycle.md R120): status gate, fetch, PC advance, last-opcode latch, decode, and either
the instruction or the unknown-opcode no-op; and which transaction a step performs. -/

namespace Sys2Proof.Machine

/-- The fetch: the two bytes at PC and PC + 1, big-endian, both addresses checked first (R62, R122).  It reads memory as it
is now, so it sees every earlier store (R80). -/
def fetch (s : State) : Except FatalError Word :=
  match readBlock s s.pc.toNat 2 with
  | .error e => .error e
  | .ok bytes => .ok (wordOfBytes (bytes.getD 0 0) (bytes.getD 1 0))

/-- The common part after a successful fetch: PC + 2 and the last-opcode latch (R123, R124). -/
def advance (w : Word) (s : State) : State := { s with pc := s.pc + 2, lastOpcode := w }

/-- Decode the word and run its instruction, or report it as unknown (R125, R126). -/
def executeWord (w : Word) (s : State) : Result :=
  match decodeWord w with
  | .ok i => exec i s
  | .error _ => reportUnknown w s

/-- `cycle`: no effect unless the status is Running (R121); a fetch fault commits nothing but the error (R276). -/
def cycle (s : State) : Result :=
  match s.status with
  | .running =>
    match fetch s with
    | .error e => raiseFatal e s
    | .ok w => executeWord w (advance w s)
  | .waitingForKey _ => .next s
  | .faulted _ => .next s

/-- One whole transaction (R15). -/
def perform (t : Transaction) (s : State) : Result :=
  match t with
  | .cycle => cycle s
  | .updateTimers => .next (updateTimers s)
  | .onKeyPressed c => .next (onKeyPressed c s)
  | .onKeyReleased c => .next (onKeyReleased c s)
  | .clearRedraw => .next (clearRedraw s)
  | .load bytes => .next (load bytes s)
  | .reset => .next (resetCore s)

/-- The transaction the environment issues next: the nearest one scheduled, and a `cycle` when none is (log 4). -/
def nextTransaction (s : State) : Transaction := s.schedule.headD .cycle

/-- A transaction begins: it leaves the schedule, and the error channel is empty until the transaction reports something
(R13, R272; logs 3 and 4). -/
def beginTransaction (s : State) : State := { s with schedule := s.schedule.tail, report := none }

/-- Where the bytes of the next instruction must stand: at PC; at the reset PC, 0x200, when PC and PC + 1 are not both
addresses (log 7). -/
def fetchableAddr (s : State) : Word := if s.pc.toNat < 0xFFF then s.pc else 0x200

/-- The schedule under which the next transaction is a `cycle` (log 7). -/
def cycleNext : List Transaction → List Transaction
  | [] => []
  | t :: ts => .cycle :: t :: ts

/-- A word placed where the next step fetches, and the step made to fetch it (log 7). -/
def placeWord (s : State) (w : Word) : State :=
  { s with
    pc := fetchableAddr s
    status := .running
    schedule := cycleNext s.schedule
    mem := Memory.writeBytes s.mem (fetchableAddr s).toNat (bytesOfWord w) }

end Sys2Proof.Machine
end

