-- ==== Sys2Proof/Machine/Step.lean ====
section
/-! DEFINITION. One step of the machine: one whole transaction (spec/00_scope.md R9, R15). -/

namespace Sys2Proof.Machine

/-- One step: the next transaction, performed whole. -/
def step (s : State) : Host.Outcome State Fault Refusal := perform (nextTransaction s) (beginTransaction s)

/-- The state with an instruction, given in the opcode table's bit numbering, placed where `step` fetches its next
instruction, so that the very next step fetches and runs exactly it (log 7). -/
def State.withFetchWord (s : State) (nbits w : Nat) : State := placeWord s (tableWord nbits w)

end Sys2Proof.Machine
end

