-- ==== Sys2Proof/Safety.lean ====
section
/-! DEFINITION. The terms in which claims speak of the machine: what a transition leaves unchanged, the machine's invariant,
a healthy run, and which cells a sprite covers. -/

namespace Sys2Proof.Machine

/-! ### Frames -/

/-- The single-valued pieces of state, the V registers and memory apart. -/
inductive Part where
  | pc | index | stack | dt | st | pix | keys | status | redraw | lastOpcode
  /-- the error channel's output -/
  | report
  /-- the supplied random bytes and the count of free draws -/
  | random
  deriving DecidableEq, Repr

/-- The piece has the same value in both states. -/
def Part.kept (s t : State) : Part → Prop
  | .pc => t.pc = s.pc
  | .index => t.index = s.index
  | .stack => t.stack = s.stack
  | .dt => t.dt = s.dt
  | .st => t.st = s.st
  | .pix => t.pix = s.pix
  | .keys => t.keys = s.keys
  | .status => t.status = s.status
  | .redraw => t.redraw = s.redraw
  | .lastOpcode => t.lastOpcode = s.lastOpcode
  | .report => t.report = s.report
  | .random => t.byteSource = s.byteSource ∧ t.draws = s.draws

/-- From `s` to `t` nothing changes but the V registers `regs`, the memory bytes at the addresses `stored`, and the pieces
`parts`; the parameters and the environment's schedule never do. -/
structure OnlyChanges (regs : List Reg) (stored : List Nat) (parts : List Part) (s t : State) : Prop where
  regs_kept : ∀ r, r ∉ regs → t.reg r = s.reg r
  mem_kept : ∀ a, a ∉ stored → Memory.read t.mem a = Memory.read s.mem a
  parts_kept : ∀ p, p ∉ parts → p.kept s t
  config_kept : t.config = s.config
  schedule_kept : t.schedule = s.schedule

/-! ### The invariant -/

/-- What holds of the reset state and is kept by every step. -/
structure State.Inv (s : State) : Prop where
  /-- memory is in its canonical form, inside 0 to 0xFFF -/
  mem_canonical : Memory.wf s.mem = true
  /-- the depth of the stack lies in 0 to `STACK_DEPTH` (R32, R149) -/
  stack_bounded : s.stack.length ≤ s.config.stackDepth
  /-- every entry is the address of a fetched CALL (R35) -/
  stack_entries : ∀ a ∈ s.stack, a.toNat ≤ 0xFFE
  /-- PC is at most 0x10FE (R26) -/
  pc_bounded : s.pc.toNat ≤ 0x10FE
  /-- a recorded address is an invalid one (R51, R261) -/
  fault_addr : ∀ a, s.status = .faulted (.memoryOutOfBounds a) → 0x1000 ≤ a
  /-- `STACK_DEPTH` is positive (R8) -/
  depth_positive : Config.wellFormed s.config = true

/-! ### Healthy runs -/

/-- No fatal error is recorded (R51). -/
def State.Healthy (s : State) : Prop := ∀ e, s.status ≠ .faulted e

/-- The first `k` steps from `s` all end in healthy states.  A faulted state refutes that a run went well (R278). -/
def HealthyRun (k : Nat) (s : State) : Prop :=
  ∀ j, j ≤ k → ∃ t, Host.Core.run Sys2Proof.core j s = .next t ∧ State.Healthy t

/-! ### Fetching, as claims say it -/

/-- The word at PC: the byte at the lower address in the high half (R62). -/
def wordAtPc (s : State) : Word :=
  wordOfBytes (Memory.read s.mem s.pc.toNat) (Memory.read s.mem (s.pc.toNat + 1))

/-- The next step is a cycle that fetches and executes: nothing else is scheduled before it, the status is Running, and PC
and PC + 1 are addresses (R120, R122). -/
def CycleExecutes (s : State) : Prop :=
  nextTransaction s = .cycle ∧ s.status = .running ∧ s.pc.toNat + 1 ≤ 0xFFF

/-- The state an instruction's own operation starts from: PC past the instruction, the latch holding its word, nothing
reported yet, and this cycle taken off the schedule (R14, R123, R124). -/
def afterFetch (s : State) : State :=
  { s with pc := s.pc + 2, lastOpcode := wordAtPc s, report := none, schedule := s.schedule.tail }

/-! ### Sprites, as claims say it -/

/-- Is the cell at (col, row) under a set bit of the `n`-row sprite at I, drawn at the position V[x], V[y]?  The cell's
distance from the origin is counted to the right and downwards, each axis wrapping on its own (R213); bit 7 of a sprite
byte is the leftmost column (R214). -/
def spriteCovers (s : State) (x y : Reg) (n : Nibble) (col row : Nat) : Prop :=
  let c := (col + 64 - (s.reg x).toNat % 64) % 64
  let r := (row + 32 - (s.reg y).toNat % 32) % 32
  c < 8 ∧ r < n.val ∧ (Memory.read s.mem (dataAddr s r)).getLsbD (7 - c) = true

/-- The whole sprite of Dxyn lies in memory, or there is none (R212). -/
def SpriteInRange (s : State) (n : Nibble) : Prop := n.val = 0 ∨ dataAddr s (n.val - 1) ≤ 0xFFF

end Sys2Proof.Machine
end

