-- ==== Sys2Proof/Certificates/Slice0/Obligations.lean ====
section
/-! DEFINITION. The statements for the provers.  Each docstring names the rule of spec/ it formalises; where a clause rests on
a decision the spec marks as its own, it names the decision (spec/92_eei_decisions.md D1 to D30). -/

open Sys2Proof Sys2Proof.Machine

/-! ### Encoding (spec/30_encoding.md) -/

/-- Words written out from the patterns of R97 decode to the instructions they stand for (R96; vectors S1v, EN1 to EN9). -/
def Obligations.SpecWordsDecode : Prop :=
  decodeWord 0x1234 = .ok (.jp 0x234) ∧ decodeWord 0x00E0 = .ok .cls ∧ decodeWord 0x00EE = .ok .ret ∧
  decodeWord 0xD12F = .ok (.drwVxVyN 1 2 15) ∧ decodeWord 0x8AB4 = .ok (.addVxVy 0xA 0xB) ∧
  decodeWord 0x8126 = .ok (.shrVx 1 2) ∧ decodeWord 0xF065 = .ok (.ldVxMem 0) ∧ decodeWord 0xE19E = .ok (.skpVx 1) ∧
  decodeWord 0x0120 = .error (.unknownOpcode 0x0120) ∧ decodeWord 0x5121 = .error (.unknownOpcode 0x5121)

/-- R92: the five standard fields and the primary opcode, by the source's masks and shifts; `nn = y || n` and
`nnn = x || y || n`. -/
def Obligations.FieldsAreMaskedAndShifted : Prop :=
  ∀ w : Word,
    (fieldX w).val = (w.toNat &&& 0x0F00) >>> 8 ∧ (fieldY w).val = (w.toNat &&& 0x00F0) >>> 4 ∧
    (fieldN w).val = w.toNat &&& 0x000F ∧ (fieldNN w).toNat = w.toNat &&& 0x00FF ∧
    (fieldNNN w).toNat = w.toNat &&& 0x0FFF ∧ (fieldOp w).val = (w.toNat &&& 0xF000) >>> 12 ∧
    (fieldNN w).toNat = (fieldY w).val * 16 + (fieldN w).val ∧
    (fieldNNN w).toNat = (fieldX w).val * 256 + (fieldY w).val * 16 + (fieldN w).val

/-- R110: encoding is the inverse of decoding, for every instruction with every operand; the bytes in memory too. -/
def Obligations.DecodeOfEncodeIsIdentity : Prop :=
  ∀ i : Instr, decodeWord (encode i) = .ok i ∧ ∀ rest, decodeBytes (encodeBytes i ++ rest) = .ok (i, rest)

/-- R110 the other way: a word that decodes is the word of its instruction, so no bit of it is lost. -/
def Obligations.EncodeOfDecodeIsIdentity : Prop :=
  ∀ (w : Word) (i : Instr), decodeWord w = .ok i → encode i = w

/-- R97: a word is the instruction of row `k` of the table iff `w and mask = match` for that row.  So no word has two
meanings, and the dispatch of R98 to R102 is exact. -/
def Obligations.DecodeFollowsOpcodeTable : Prop :=
  ∀ (w : Word) (k : Nat) (row : OpcodeRow), opcodeRows[k]? = some row →
    (w &&& row.mask = row.pattern ↔ ∃ i, decodeWord w = .ok i ∧ Instr.rowIndex i = k)

/-- R107: every word decodes, either to an instruction, when it matches a row, or to the unknown no-op, when it matches
none. -/
def Obligations.DecodingIsTotal : Prop :=
  ∀ w : Word,
    (Word.wellFormed w = true ∧ ∃ i, decodeWord w = .ok i) ∨
    (Word.wellFormed w = false ∧ decodeWord w = .error (.unknownOpcode w))

/-! ### The cycle (spec/40_cycle.md) -/

/-- A step runs the decoded instruction: when a cycle is next, the status is Running and the two bytes at PC, in range, form
a word that decodes to `i`, the step is `exec i` on the state with PC moved past the word, the word latched, the error
channel empty and this cycle taken off the schedule. -/
def Obligations.StepRunsDecodedInstruction : Prop :=
  ∀ (s : State) (i : Instr), nextTransaction s = .cycle → s.status = .running → s.pc.toNat + 1 ≤ 0xFFF →
    decodeWord (wordOfBytes (Memory.read s.mem s.pc.toNat) (Memory.read s.mem (s.pc.toNat + 1))) = .ok i →
    step s = exec i
      { s with
        pc := s.pc + 2
        lastOpcode := wordOfBytes (Memory.read s.mem s.pc.toNat) (Memory.read s.mem (s.pc.toNat + 1))
        report := none
        schedule := s.schedule.tail }

/-- The unknown-opcode no-op: PC has advanced by 2, the word is latched (decision D20 for the latch) and reported with code
4 (D25, D26), and nothing else changes; the status stays Running. -/
def Obligations.UnknownWordIsReportedNoOp : Prop :=
  ∀ s : State, CycleExecutes s → Word.wellFormed (wordAtPc s) = false →
    ∃ t, step s = .next t ∧ t.pc = s.pc + 2 ∧ t.lastOpcode = wordAtPc s ∧
      t.report = some (.unknownOpcode (wordAtPc s)) ∧ errorCode t.report = 4 ∧ t.status = .running ∧
      OnlyChanges [] [] [.pc, .lastOpcode, .report] { s with schedule := s.schedule.tail } t

/-- The status gate: a cycle while the CPU waits for a key (the source), or is faulted (decision D6), changes no state at
all and reports nothing. -/
def Obligations.GatedCycleHasNoEffect : Prop :=
  ∀ s : State, nextTransaction s = .cycle → s.status ≠ .running →
    ∃ t, step s = .next t ∧ t.report = none ∧ OnlyChanges [] [] [.report] { s with schedule := s.schedule.tail } t

/-- A fetch beyond 0xFFF raises MemoryOutOfBounds with the lowest invalid address (D5, D8) and commits nothing else: PC and
the latch keep their values (D7). -/
def Obligations.FetchOutOfRangeFaults : Prop :=
  ∀ s : State, nextTransaction s = .cycle → s.status = .running → 0xFFF < s.pc.toNat + 1 →
    ∃ t, step s = .next t ∧ t.status = .faulted (.memoryOutOfBounds (max s.pc.toNat 0x1000)) ∧
      t.report = some (.fatal (.memoryOutOfBounds (max s.pc.toNat 0x1000))) ∧ errorCode t.report = 1 ∧
      OnlyChanges [] [] [.status, .report] { s with schedule := s.schedule.tail } t

/-- No step of this machine stops: whatever the state, a step answers a next state (every word has a meaning, R107, and
every error the spec names is a state; log 5). -/
def Obligations.StepAlwaysAnswersNext : Prop :=
  ∀ s : State, ∃ t, step s = .next t

/-! ### ALU (spec/42_alu.md) -/

/-- R165, R169, R245: 6xnn, 8xy0 and Fx07 write V[x] and nothing else. -/
def Obligations.ByteLoadsWriteTheirRegister : Prop :=
  ∀ (s : State) (x y : Reg) (nn : Byte),
    (∃ t, exec (.ldVxNn x nn) s = .next t ∧ t.reg x = nn ∧ OnlyChanges [x] [] [] s t) ∧
    (∃ t, exec (.ldVxVy x y) s = .next t ∧ t.reg x = s.reg y ∧ OnlyChanges [x] [] [] s t) ∧
    (∃ t, exec (.ldVxDT x) s = .next t ∧ t.reg x = s.dt ∧ OnlyChanges [x] [] [] s t)

/-- R166: 7xnn adds modulo 256 and sets no flag, also on a wrap. -/
def Obligations.AddImmediateWrapsWithoutFlag : Prop :=
  ∀ (s : State) (x : Reg) (nn : Byte),
    ∃ t, exec (.addVxNn x nn) s = .next t ∧ (t.reg x).toNat = ((s.reg x).toNat + nn.toNat) % 256 ∧
      OnlyChanges [x] [] [] s t

/-- R170, R171, R172: the logic operations combine bit by bit and write no flag. -/
def Obligations.LogicOperationsAreBitwise : Prop :=
  ∀ (s : State) (x y : Reg),
    (∃ t, exec (.orVxVy x y) s = .next t ∧
      (∀ b, (t.reg x).getLsbD b = ((s.reg x).getLsbD b || (s.reg y).getLsbD b)) ∧ OnlyChanges [x] [] [] s t) ∧
    (∃ t, exec (.andVxVy x y) s = .next t ∧
      (∀ b, (t.reg x).getLsbD b = ((s.reg x).getLsbD b && (s.reg y).getLsbD b)) ∧ OnlyChanges [x] [] [] s t) ∧
    (∃ t, exec (.xorVxVy x y) s = .next t ∧
      (∀ b, (t.reg x).getLsbD b = ((s.reg x).getLsbD b ^^ (s.reg y).getLsbD b)) ∧ OnlyChanges [x] [] [] s t)

/-- 8xy4: the sum modulo 256, and V[F] the carry, from the values before the instruction; with x = F the carry is what stays
(decision D12 for the write order). -/
def Obligations.AddSetsCarry : Prop :=
  ∀ (s : State) (x y : Reg),
    ∃ t, exec (.addVxVy x y) s = .next t ∧
      (x ≠ regF → (t.reg x).toNat = ((s.reg x).toNat + (s.reg y).toNat) % 256) ∧
      t.reg regF = (if (s.reg x).toNat + (s.reg y).toNat > 255 then 1 else 0) ∧
      OnlyChanges [x, regF] [] [] s t

/-- 8xy5 and 8xy7: the difference modulo 256 in V[x], and V[F] NOT borrow, from the values before the instruction; with
x = F the difference is what stays (decision D12 for the write order). -/
def Obligations.SubtractionsSetNotBorrow : Prop :=
  ∀ (s : State) (x y : Reg),
    (∃ t, exec (.subVxVy x y) s = .next t ∧
      (t.reg x).toNat = ((s.reg x).toNat + 256 - (s.reg y).toNat) % 256 ∧
      (x ≠ regF → t.reg regF = if (s.reg x).toNat ≥ (s.reg y).toNat then 1 else 0) ∧
      OnlyChanges [x, regF] [] [] s t) ∧
    (∃ t, exec (.subnVxVy x y) s = .next t ∧
      (t.reg x).toNat = ((s.reg y).toNat + 256 - (s.reg x).toNat) % 256 ∧
      (x ≠ regF → t.reg regF = if (s.reg y).toNat ≥ (s.reg x).toNat then 1 else 0) ∧
      OnlyChanges [x, regF] [] [] s t)

/-- 8xy6 and 8xyE: V[x] shifted in place by one place, and V[F] the bit shifted out; V[y] plays no part; with x = F the
shifted value is what stays (decision D12 for the write order). -/
def Obligations.ShiftsSetTheBitShiftedOut : Prop :=
  ∀ (s : State) (x y : Reg),
    (∃ t, exec (.shrVx x y) s = .next t ∧ (t.reg x).toNat = (s.reg x).toNat / 2 ∧
      (x ≠ regF → (t.reg regF).toNat = (s.reg x).toNat % 2) ∧ OnlyChanges [x, regF] [] [] s t) ∧
    (∃ t, exec (.shlVx x y) s = .next t ∧ (t.reg x).toNat = (s.reg x).toNat * 2 % 256 ∧
      (x ≠ regF → (t.reg regF).toNat = (s.reg x).toNat / 128) ∧ OnlyChanges [x, regF] [] [] s t)

/-- Cxnn: V[x] is this execution's own byte masked with nn: the next byte supplied to the source, or, where none is, the free
value of the next draw, whatever it is (decision D22; log 2).  Each execution has a draw of its own, and the result never
has a bit outside the mask. -/
def Obligations.RandomByteIsMasked : Prop :=
  ∀ (s : State) (x : Reg) (nn : Byte),
    ∃ t, exec (.rndVxNn x nn) s = .next t ∧ t.reg x &&& ~~~nn = 0 ∧
      (∀ b rest, s.byteSource = b :: rest → t.reg x = b &&& nn ∧ t.byteSource = rest ∧ t.draws = s.draws) ∧
      (s.byteSource = [] →
        t.reg x = Config.randomByte s.draws &&& nn ∧ t.byteSource = [] ∧ t.draws = s.draws + 1) ∧
      OnlyChanges [x] [] [.random] s t

/-! ### Control transfer (spec/41_control.md); PC is the advanced one, so `PC - 2` is the executing instruction -/

/-- R141, R143: 1nnn goes to nnn; Bnnn goes to V[0] + nnn, which is not reduced to 12 bits. -/
def Obligations.JumpsGoToTheirTarget : Prop :=
  ∀ (s : State) (nnn : Imm12),
    (∃ t, exec (.jp nnn) s = .next t ∧ t.pc.toNat = nnn.toNat ∧ OnlyChanges [] [] [.pc] s t) ∧
    (∃ t, exec (.jpV0Nnn nnn) s = .next t ∧ t.pc.toNat = (s.reg 0).toNat + nnn.toNat ∧ OnlyChanges [] [] [.pc] s t)

/-- 2nnn with room on the stack pushes the address of the CALL itself and goes to nnn. -/
def Obligations.CallPushesItsOwnAddress : Prop :=
  ∀ (s : State) (nnn : Imm12), s.stack.length < s.config.stackDepth →
    ∃ t, exec (.call nnn) s = .next t ∧ t.stack = (s.pc - 2) :: s.stack ∧ t.pc.toNat = nnn.toNat ∧
      OnlyChanges [] [] [.pc, .stack] s t

/-- 2nnn on a full stack raises StackOverflow: the status is Faulted (decision D6), PC keeps its advanced value, nothing is
pushed and nothing else changes (D7). -/
def Obligations.CallOnFullStackFaults : Prop :=
  ∀ (s : State) (nnn : Imm12), s.config.stackDepth ≤ s.stack.length →
    ∃ t, exec (.call nnn) s = .next t ∧ t.status = .faulted .stackOverflow ∧
      t.report = some (.fatal .stackOverflow) ∧ errorCode t.report = 2 ∧ OnlyChanges [] [] [.status, .report] s t

/-- 00EE with an entry on the stack pops it and goes to the instruction after the CALL. -/
def Obligations.ReturnGoesPastTheCall : Prop :=
  ∀ (s : State) (a : Word) (rest : List Word), s.stack = a :: rest →
    ∃ t, exec .ret s = .next t ∧ t.stack = rest ∧ t.pc = a + 2 ∧ OnlyChanges [] [] [.pc, .stack] s t

/-- 00EE on an empty stack raises StackUnderflow: the status is Faulted (decision D6), PC keeps its advanced value and
nothing else changes (D7). -/
def Obligations.ReturnOnEmptyStackFaults : Prop :=
  ∀ s : State, s.stack = [] →
    ∃ t, exec .ret s = .next t ∧ t.status = .faulted .stackUnderflow ∧
      t.report = some (.fatal .stackUnderflow) ∧ errorCode t.report = 3 ∧ OnlyChanges [] [] [.status, .report] s t

/-- R148: for any PC0, a CALL fetched there and then, after called code that leaves the stack as the CALL left it, a RET,
restore PC = PC0 + 2 and the stack before the CALL. -/
def Obligations.CallThenReturnComesBack : Prop :=
  ∀ (s : State) (pc0 : Word) (nnn : Imm12), s.pc = pc0 + 2 → s.stack.length < s.config.stackDepth →
    ∃ t, exec (.call nnn) s = .next t ∧
      ∀ u : State, u.stack = t.stack → ∃ w, exec .ret u = .next w ∧ w.pc = pc0 + 2 ∧ w.stack = s.stack

/-- R144, R145: 3xnn and 4xnn skip the next instruction on equality and on inequality. -/
def Obligations.ImmediateSkips : Prop :=
  ∀ (s : State) (x : Reg) (nn : Byte),
    (∃ t, exec (.seVxNn x nn) s = .next t ∧ t.pc = (if s.reg x = nn then s.pc + 2 else s.pc) ∧
      OnlyChanges [] [] [.pc] s t) ∧
    (∃ t, exec (.sneVxNn x nn) s = .next t ∧ t.pc = (if s.reg x = nn then s.pc else s.pc + 2) ∧
      OnlyChanges [] [] [.pc] s t)

/-- R146, R147: 5xy0 and 9xy0 skip the next instruction on equality and on inequality of two registers. -/
def Obligations.RegisterSkips : Prop :=
  ∀ (s : State) (x y : Reg),
    (∃ t, exec (.seVxVy x y) s = .next t ∧ t.pc = (if s.reg x = s.reg y then s.pc + 2 else s.pc) ∧
      OnlyChanges [] [] [.pc] s t) ∧
    (∃ t, exec (.sneVxVy x y) s = .next t ∧ t.pc = (if s.reg x = s.reg y then s.pc else s.pc + 2) ∧
      OnlyChanges [] [] [.pc] s t)

/-! ### Index register and memory (spec/43_index_memory.md) -/

/-- R191, R193: Annn loads I; Fx29 loads I with five times the whole of V[x] and marks redraw. -/
def Obligations.IndexLoads : Prop :=
  ∀ (s : State) (x : Reg) (nnn : Imm12),
    (∃ t, exec (.ldINnn nnn) s = .next t ∧ t.index.toNat = nnn.toNat ∧ OnlyChanges [] [] [.index] s t) ∧
    (∃ t, exec (.ldFVx x) s = .next t ∧ t.index.toNat = (s.reg x).toNat * 5 ∧ t.redraw = true ∧
      OnlyChanges [] [] [.index, .redraw] s t)

/-- Fx1E: I + V[x] modulo 65536 (decision D3), no flag, no error. -/
def Obligations.AddToIndexSetsNoFlag : Prop :=
  ∀ (s : State) (x : Reg),
    ∃ t, exec (.addIVx x) s = .next t ∧ t.index.toNat = (s.index.toNat + (s.reg x).toNat) % 65536 ∧
      OnlyChanges [] [] [.index] s t

/-- Fx33 in range stores the three decimal digits of V[x], hundreds first, at I, I + 1 and I + 2, and no other byte. -/
def Obligations.BcdStoresThreeDigits : Prop :=
  ∀ (s : State) (x : Reg), dataAddr s 2 ≤ 0xFFF →
    ∃ t, exec (.ldBVx x) s = .next t ∧
      (Memory.read t.mem (dataAddr s 0)).toNat = (s.reg x).toNat / 100 ∧
      (Memory.read t.mem (dataAddr s 1)).toNat = (s.reg x).toNat / 10 % 10 ∧
      (Memory.read t.mem (dataAddr s 2)).toNat = (s.reg x).toNat % 10 ∧
      100 * (Memory.read t.mem (dataAddr s 0)).toNat + 10 * (Memory.read t.mem (dataAddr s 1)).toNat
        + (Memory.read t.mem (dataAddr s 2)).toNat = (s.reg x).toNat ∧
      OnlyChanges [] [dataAddr s 0, dataAddr s 1, dataAddr s 2] [] s t

/-- Fx55 in range stores V[0] to V[x] at I to I + x, no other byte, and leaves I. -/
def Obligations.BlockStoreCopiesRegisters : Prop :=
  ∀ (s : State) (x : Reg), dataAddr s x.val ≤ 0xFFF →
    ∃ t, exec (.ldMemVx x) s = .next t ∧
      (∀ k : Reg, k ≤ x → Memory.read t.mem (dataAddr s k.val) = s.reg k) ∧
      OnlyChanges [] ((List.range (x.val + 1)).map (dataAddr s)) [] s t

/-- Fx65 in range loads V[0] to V[x] from I to I + x, no other register, and leaves I and all of memory. -/
def Obligations.BlockLoadCopiesMemory : Prop :=
  ∀ (s : State) (x : Reg), dataAddr s x.val ≤ 0xFFF →
    ∃ t, exec (.ldVxMem x) s = .next t ∧
      (∀ k : Reg, k ≤ x → t.reg k = Memory.read s.mem (dataAddr s k.val)) ∧
      OnlyChanges ((List.finRange 16).filter (fun k => k ≤ x)) [] [] s t

/-- Dxyn with n > 0, Fx33, Fx55 and Fx65 whose range passes 0xFFF raise MemoryOutOfBounds with the lowest invalid address
(decision D8) and commit nothing but the fault: no memory byte, no V register, no pixel (D7). -/
def Obligations.OutOfRangeAccessCommitsOnlyTheFault : Prop :=
  ∀ (s : State) (i : Instr) (last : Nat),
    ((∃ x y n, i = .drwVxVyN x y n ∧ 0 < n.val ∧ last = n.val - 1) ∨ (∃ x, i = .ldBVx x ∧ last = 2) ∨
      (∃ x, i = .ldMemVx x ∧ last = x.val) ∨ (∃ x, i = .ldVxMem x ∧ last = x.val)) →
    0xFFF < dataAddr s last →
    ∃ t, exec i s = .next t ∧ t.status = .faulted (.memoryOutOfBounds (max s.index.toNat 0x1000)) ∧
      t.report = some (.fatal (.memoryOutOfBounds (max s.index.toNat 0x1000))) ∧
      OnlyChanges [] [] [.status, .report] s t

/-- R198: storing V[0] to V[x] and then loading from the same I restores identical values, for any x, where nothing stored to
the block in between. -/
def Obligations.StoreThenLoadRestores : Prop :=
  ∀ (s : State) (x : Reg), dataAddr s x.val ≤ 0xFFF →
    ∃ t, exec (.ldMemVx x) s = .next t ∧
      ∀ u : State, u.index = s.index →
        (∀ k, k ≤ x.val → Memory.read u.mem (dataAddr s k) = Memory.read t.mem (dataAddr s k)) →
        ∃ w, exec (.ldVxMem x) u = .next w ∧ ∀ k : Reg, k ≤ x → w.reg k = s.reg k

/-! ### Display (spec/44_display.md) -/

/-- R210: 00E0 zeroes all 2048 cells and sets the redraw flag. -/
def Obligations.ClearScreen : Prop :=
  ∀ s : State,
    ∃ t, exec .cls s = .next t ∧ (∀ k, k < 2048 → Pixels.cell t.pix k = false) ∧ t.redraw = true ∧
      OnlyChanges [] [] [.pix, .redraw] s t

/-- Dxyn whose sprite is in range, or has no row: each cell under a set sprite bit is inverted and no other, each axis
wrapping on its own (decisions D14, D16), the position taken before V[F] is written (D13); redraw is marked, changed or
not; of the registers only V[F] is written. -/
def Obligations.DrawXorsTheWrappedSprite : Prop :=
  ∀ (s : State) (x y : Reg) (n : Nibble), SpriteInRange s n →
    ∃ t, exec (.drwVxVyN x y n) s = .next t ∧
      (∀ col row, col < 64 → row < 32 →
        (spriteCovers s x y n col row →
          Pixels.cell t.pix (pixelIndex col row) = !Pixels.cell s.pix (pixelIndex col row)) ∧
        (¬ spriteCovers s x y n col row →
          Pixels.cell t.pix (pixelIndex col row) = Pixels.cell s.pix (pixelIndex col row))) ∧
      t.redraw = true ∧ OnlyChanges [regF] [] [.pix, .redraw] s t

/-- The collision detector: V[F] is 1 iff some set sprite bit landed on a set cell, else 0; one bit for the instruction
(R215; which cells the sprite covers rests on D14 and D16). -/
def Obligations.DrawFlagIsCollision : Prop :=
  ∀ (s : State) (x y : Reg) (n : Nibble), SpriteInRange s n →
    ∃ t, exec (.drwVxVyN x y n) s = .next t ∧
      ((∃ col row, col < 64 ∧ row < 32 ∧ spriteCovers s x y n col row ∧
          Pixels.cell s.pix (pixelIndex col row) = true) → t.reg regF = 1) ∧
      ((∀ col row, col < 64 → row < 32 → spriteCovers s x y n col row →
          Pixels.cell s.pix (pixelIndex col row) = false) → t.reg regF = 0)

/-- Drawing the same sprite twice at the same position with the same memory restores the buffer (the spec's own derivation
in R216); and the second draw reports a collision iff the first one set a cell, that is, iff some covered cell was clear
before it (R215 and the source's test S9; R216's shorter wording holds over a clear region: log 8). -/
def Obligations.DrawTwiceRestoresTheBuffer : Prop :=
  ∀ (s : State) (x y : Reg) (n : Nibble), SpriteInRange s n →
    ∃ t, exec (.drwVxVyN x y n) s = .next t ∧
      ∀ u : State, u.pix = t.pix → u.index = s.index → (∀ a, Memory.read u.mem a = Memory.read s.mem a) →
        u.reg x = s.reg x → u.reg y = s.reg y →
        ∃ w, exec (.drwVxVyN x y n) u = .next w ∧ w.pix = s.pix ∧
          (w.reg regF = 1 ↔ ∃ col row, col < 64 ∧ row < 32 ∧ spriteCovers s x y n col row ∧
            Pixels.cell s.pix (pixelIndex col row) = false)

/-! ### Keypad and timers (spec/45_keypad_timers.md) -/

/-- Ex9E skips iff the key that V[x] names is pressed, ExA1 exactly when Ex9E would not; a number above 15 names no key
(decision D18). -/
def Obligations.KeySkips : Prop :=
  ∀ (s : State) (x : Reg),
    (∃ t, exec (.skpVx x) s = .next t ∧
      t.pc = (if ∃ k : Key, (s.reg x).toNat = k.val ∧ s.keys.get k = true then s.pc + 2 else s.pc) ∧
      OnlyChanges [] [] [.pc] s t) ∧
    (∃ t, exec (.sknpVx x) s = .next t ∧
      t.pc = (if ∃ k : Key, (s.reg x).toNat = k.val ∧ s.keys.get k = true then s.pc else s.pc + 2) ∧
      OnlyChanges [] [] [.pc] s t)

/-- R235: Fx0A makes the CPU wait for a key with x as the target; no register changes yet. -/
def Obligations.KeyWaitIsEntered : Prop :=
  ∀ (s : State) (x : Reg),
    ∃ t, exec (.ldVxK x) s = .next t ∧ t.status = .waitingForKey x ∧ OnlyChanges [] [] [.status] s t

/-- R246, R247: Fx15 and Fx18 load DT and ST with V[x]. -/
def Obligations.TimerLoads : Prop :=
  ∀ (s : State) (x : Reg),
    (∃ t, exec (.ldDTVx x) s = .next t ∧ t.dt = s.reg x ∧ OnlyChanges [] [] [.dt] s t) ∧
    (∃ t, exec (.ldSTVx x) s = .next t ∧ t.st = s.reg x ∧ OnlyChanges [] [] [.st] s t)

/-- `updateTimers` in any status (decision D23 for Faulted) counts each timer down by one, held at 0, and changes nothing
else. -/
def Obligations.TimerTickCountsDown : Prop :=
  ∀ s : State, nextTransaction s = .updateTimers →
    ∃ t, step s = .next t ∧ t.dt.toNat = s.dt.toNat - 1 ∧ t.st.toNat = s.st.toNat - 1 ∧ t.report = none ∧
      OnlyChanges [] [] [.dt, .st, .report] { s with schedule := s.schedule.tail } t

/-- R240: `onKeyPressed(c)` sets `keys[c]` and changes nothing else, in any status; a press never ends a wait. -/
def Obligations.KeyPressSetsItsKey : Prop :=
  ∀ (s : State) (c : Key), nextTransaction s = .onKeyPressed c →
    ∃ t, step s = .next t ∧ t.keys.get c = true ∧ (∀ k, k ≠ c → t.keys.get k = s.keys.get k) ∧ t.report = none ∧
      OnlyChanges [] [] [.keys, .report] { s with schedule := s.schedule.tail } t

/-- R241: `onKeyReleased(c)` clears `keys[c]` and, when the CPU waits with target r, writes c to V[r] and lets it run; in
any other status only the key changes. -/
def Obligations.KeyReleaseEndsTheWait : Prop :=
  ∀ (s : State) (c : Key), nextTransaction s = .onKeyReleased c →
    ∃ t, step s = .next t ∧ t.keys.get c = false ∧ (∀ k, k ≠ c → t.keys.get k = s.keys.get k) ∧ t.report = none ∧
      (∀ r, s.status = .waitingForKey r →
        (t.reg r).toNat = c.val ∧ t.status = .running ∧
        OnlyChanges [r] [] [.keys, .status, .report] { s with schedule := s.schedule.tail } t) ∧
      ((∀ r, s.status ≠ .waitingForKey r) →
        OnlyChanges [] [] [.keys, .report] { s with schedule := s.schedule.tail } t)

/-! ### The other transactions (spec/44_display.md, spec/70_reset_and_hazards.md) -/

/-- R218: `clearRedraw` clears the redraw flag and nothing else, in any status; and but for it only `reset` clears the
flag. -/
def Obligations.ClearRedrawTouchesOnlyTheFlag : Prop :=
  (∀ s : State, nextTransaction s = .clearRedraw →
    ∃ t, step s = .next t ∧ t.redraw = false ∧ t.report = none ∧
      OnlyChanges [] [] [.redraw, .report] { s with schedule := s.schedule.tail } t) ∧
  (∀ s t : State, step s = .next t → s.redraw = true → t.redraw = false →
    nextTransaction s = .clearRedraw ∨ nextTransaction s = .reset)

/-- R308: `load` of at most 3584 bytes stores them verbatim from 0x200 and touches nothing else; a longer sequence raises
ProgramTooLarge and nothing is written. -/
def Obligations.LoadCopiesTheProgram : Prop :=
  ∀ (s : State) (bytes : List Byte), nextTransaction s = .load bytes →
    (bytes.length ≤ 3584 →
      ∃ t, step s = .next t ∧ t.report = none ∧
        (∀ k (h : k < bytes.length), Memory.read t.mem (0x200 + k) = bytes[k]) ∧
        OnlyChanges [] ((List.range bytes.length).map (fun k => 0x200 + k)) [.report]
          { s with schedule := s.schedule.tail } t) ∧
    (3584 < bytes.length →
      ∃ t, step s = .next t ∧ t.report = some .programTooLarge ∧
        OnlyChanges [] [] [.report] { s with schedule := s.schedule.tail } t)

/-- `reset` in any status gives all of the core's state its reset value (decision D20 for those the source does not list),
independent of the state before; it keeps the parameters and the model's environment fields (logs 1, 2, 4). -/
def Obligations.ResetForgetsEverything : Prop :=
  ∀ s : State, nextTransaction s = .reset →
    step s = .next
      { State.reset with
        config := s.config
        schedule := s.schedule.tail
        byteSource := s.byteSource
        draws := s.draws }

/-- The reset values of the core's own state (R52): V and PC, the empty stack and the reloaded font are the source's; the rest
are the spec's decision D20.  The 80 font bytes are written out from the table of R49, glyph by glyph, which is general
knowledge (decision D17; log 6). -/
def Obligations.ResetValues : Prop :=
  (∀ x, State.reset.reg x = 0) ∧ State.reset.index = 0 ∧ State.reset.pc = 0x200 ∧ State.reset.stack = [] ∧
  State.reset.dt = 0 ∧ State.reset.st = 0 ∧ (∀ k, Pixels.cell State.reset.pix k = false) ∧
  (∀ k, State.reset.keys.get k = false) ∧ State.reset.status = .running ∧ State.reset.redraw = false ∧
  State.reset.lastOpcode = 0 ∧ (∀ a, 0x50 ≤ a → Memory.read State.reset.mem a = 0) ∧
  Memory.readBytes State.reset.mem 0x000 80 =
      [ 0xF0, 0x90, 0x90, 0x90, 0xF0,  0x20, 0x60, 0x20, 0x20, 0x70 ] ++
      [ 0xF0, 0x10, 0xF0, 0x80, 0xF0,  0xF0, 0x10, 0xF0, 0x10, 0xF0 ] ++
      [ 0x90, 0x90, 0xF0, 0x10, 0x10,  0xF0, 0x80, 0xF0, 0x10, 0xF0 ] ++
      [ 0xF0, 0x80, 0xF0, 0x90, 0xF0,  0xF0, 0x10, 0x20, 0x40, 0x40 ] ++
      [ 0xF0, 0x90, 0xF0, 0x90, 0xF0,  0xF0, 0x90, 0xF0, 0x10, 0xF0 ] ++
      [ 0xF0, 0x90, 0xF0, 0x90, 0x90,  0xE0, 0x90, 0xE0, 0x90, 0xE0 ] ++
      [ 0xF0, 0x80, 0x80, 0x80, 0xF0,  0xE0, 0x90, 0x90, 0x90, 0xE0 ] ++
      [ 0xF0, 0x80, 0xF0, 0x80, 0xF0,  0xF0, 0x80, 0xF0, 0x80, 0x80 ]

/-! ### Rules of the whole machine -/

/-- R332: the CPU's wait for a key is lifted only by a key release or by reset: whatever else a step performs, the machine
waits on with the same target, and the CPU has made no step: no V register, PC, I, stack entry, pixel or latch has
changed. -/
def Obligations.WaitIsLiftedOnlyByReleaseOrReset : Prop :=
  ∀ (s t : State) (r : Reg), s.status = .waitingForKey r → step s = .next t →
    (∀ c, nextTransaction s ≠ .onKeyReleased c) → nextTransaction s ≠ .reset →
    t.status = .waitingForKey r ∧ t.pc = s.pc ∧ t.lastOpcode = s.lastOpcode ∧ t.stack = s.stack ∧ t.index = s.index ∧
    t.pix = s.pix ∧ ∀ x, t.reg x = s.reg x

/-- A fault record is never cleared by a later transaction other than reset, and no instruction runs meanwhile (decision
D6). -/
def Obligations.FaultIsLeftOnlyByReset : Prop :=
  ∀ (s t : State) (e : FatalError), s.status = .faulted e → step s = .next t → nextTransaction s ≠ .reset →
    t.status = .faulted e ∧ t.pc = s.pc ∧ t.lastOpcode = s.lastOpcode ∧ t.stack = s.stack ∧ t.index = s.index ∧
    t.pix = s.pix ∧ ∀ x, t.reg x = s.reg x

/-- The timers change only by a tick, by reset, or by the instruction that loads them (R42, R43, R127; conflicts C10 and
C11). -/
def Obligations.TimersChangeOnlyByTickOrLoad : Prop :=
  ∀ s t : State, step s = .next t → nextTransaction s ≠ .updateTimers → nextTransaction s ≠ .reset →
    (t.dt ≠ s.dt → CycleExecutes s ∧ ∃ x, decodeWord (wordAtPc s) = .ok (.ldDTVx x)) ∧
    (t.st ≠ s.st → CycleExecutes s ∧ ∃ x, decodeWord (wordAtPc s) = .ok (.ldSTVx x))

/-- R219: the pixels are changed only by 00E0, Dxyn and reset. -/
def Obligations.PixelsChangeOnlyByClsDrwReset : Prop :=
  ∀ s t : State, step s = .next t → t.pix ≠ s.pix →
    nextTransaction s = .reset ∨
    (CycleExecutes s ∧ (decodeWord (wordAtPc s) = .ok .cls ∨
      ∃ x y n, decodeWord (wordAtPc s) = .ok (.drwVxVyN x y n)))

/-- The redraw flag is set only by 00E0, Dxyn and Fx29, and cleared only by `clearRedraw` and reset (R38, conflict C3). -/
def Obligations.RedrawFlagChangesOnlyAsMarked : Prop :=
  ∀ s t : State, step s = .next t → t.redraw ≠ s.redraw →
    (t.redraw = false ∧ (nextTransaction s = .clearRedraw ∨ nextTransaction s = .reset)) ∨
    (t.redraw = true ∧ CycleExecutes s ∧ (decodeWord (wordAtPc s) = .ok .cls ∨
      (∃ x y n, decodeWord (wordAtPc s) = .ok (.drwVxVyN x y n)) ∨ ∃ x, decodeWord (wordAtPc s) = .ok (.ldFVx x)))

/-- The stack changes only by CALL, which adds one entry, by RET, which removes one, and by reset (the spec's own derivation
in R149). -/
def Obligations.StackChangesOnlyByCallRetReset : Prop :=
  ∀ s t : State, step s = .next t → t.stack ≠ s.stack →
    nextTransaction s = .reset ∨
    (CycleExecutes s ∧ ∃ nnn, decodeWord (wordAtPc s) = .ok (.call nnn) ∧ t.stack = s.pc :: s.stack) ∨
    (CycleExecutes s ∧ decodeWord (wordAtPc s) = .ok .ret ∧ ∃ a, s.stack = a :: t.stack ∧ t.pc = a + 2)

/-- A byte of memory changes only by Fx33 and Fx55, inside the block they address, by a load, from 0x200 on, and by reset
(R65, R67). -/
def Obligations.MemoryChangesOnlyByStoresLoadReset : Prop :=
  ∀ (s t : State) (a : Nat), step s = .next t → Memory.read t.mem a ≠ Memory.read s.mem a →
    nextTransaction s = .reset ∨
    (∃ bytes, nextTransaction s = .load bytes ∧ 0x200 ≤ a ∧ a ≤ 0xFFF) ∨
    (CycleExecutes s ∧ ∃ x, decodeWord (wordAtPc s) = .ok (.ldBVx x) ∧ dataAddr s 0 ≤ a ∧ a ≤ dataAddr s 2 ∧ a ≤ 0xFFF) ∨
    (CycleExecutes s ∧ ∃ x, decodeWord (wordAtPc s) = .ok (.ldMemVx x) ∧ dataAddr s 0 ≤ a ∧
      a ≤ dataAddr s x.val ∧ a ≤ 0xFFF)

/-- Which instruction raises what: an instruction run in Running that leaves the machine faulted is one of the six that can,
on the condition and with the error kind of the table in R267; the other 28 never raise an error. -/
def Obligations.OnlyTheseInstructionsFault : Prop :=
  ∀ (s t : State) (i : Instr) (e : FatalError), s.status = .running → exec i s = .next t → t.status = .faulted e →
    (i = .ret ∧ s.stack = [] ∧ e = .stackUnderflow) ∨
    (∃ nnn, i = .call nnn ∧ s.config.stackDepth ≤ s.stack.length ∧ e = .stackOverflow) ∨
    (∃ last, 0xFFF < dataAddr s last ∧ e = .memoryOutOfBounds (max s.index.toNat 0x1000) ∧
      ((∃ x y n, i = .drwVxVyN x y n ∧ 0 < n.val ∧ last = n.val - 1) ∨ (∃ x, i = .ldBVx x ∧ last = 2) ∨
        (∃ x, i = .ldMemVx x ∧ last = x.val) ∨ (∃ x, i = .ldVxMem x ∧ last = x.val)))

/-! ### The invariant and what a program cannot learn -/

/-- The reset state meets the machine's invariant. -/
def Obligations.ResetMeetsInvariant : Prop := State.Inv State.reset

/-- From every state that meets the invariant, whatever transaction comes next, a step gives a state that meets it: memory
stays canonical and inside 0 to 0xFFF, the stack stays within its bound and holds addresses of fetched CALLs (R35), PC stays
at most 0x10FE (R26), a recorded address is an invalid one (R261). -/
def Obligations.StepKeepsInvariant : Prop :=
  ∀ s t : State, State.Inv s → step s = .next t → State.Inv t

/-- A program cannot observe ST, the redraw flag or the last-opcode latch (R41): machines that differ in these alone step to
machines that differ in these alone. -/
def Obligations.UnobservableStateStaysUnobserved : Prop :=
  ∀ (s : State) (st : Byte) (redraw : Bool) (last : Word),
    ∃ t t', step s = .next t ∧ step { s with st := st, redraw := redraw, lastOpcode := last } = .next t' ∧
      { t' with st := t.st, redraw := t.redraw, lastOpcode := t.lastOpcode } = t
end

