-- ==== Sys2Proof/Laws/Encoding.lean ====
section
/-! SUPPORT. The fields of the words the encoder builds, and words rebuilt from their fields (spec/30_encoding.md R92,
R110): everything a proof about decode and encode needs, so that none of them opens a bit field. -/

namespace Sys2Proof

/-! ### Each field as a quotient and a remainder -/

theorem fieldOp_val (w : Word) : (fieldOp w).val = w.toNat / 4096 := by
  have := w.isLt
  simp only [fieldOp, BitVec.val_toFin, BitVec.extractLsb'_toNat, Nat.shiftRight_eq_div_pow]
  omega

theorem fieldX_val (w : Word) : (fieldX w).val = w.toNat / 256 % 16 := by
  simp only [fieldX, BitVec.val_toFin, BitVec.extractLsb'_toNat, Nat.shiftRight_eq_div_pow]

theorem fieldY_val (w : Word) : (fieldY w).val = w.toNat / 16 % 16 := by
  simp only [fieldY, BitVec.val_toFin, BitVec.extractLsb'_toNat, Nat.shiftRight_eq_div_pow]

theorem fieldN_val (w : Word) : (fieldN w).val = w.toNat % 16 := by
  simp only [fieldN, BitVec.val_toFin, BitVec.extractLsb'_toNat, Nat.shiftRight_eq_div_pow]
  omega

theorem fieldNN_toNat (w : Word) : (fieldNN w).toNat = w.toNat % 256 := by
  simp only [fieldNN, BitVec.extractLsb'_toNat, Nat.shiftRight_eq_div_pow]
  omega

theorem fieldNNN_toNat (w : Word) : (fieldNNN w).toNat = w.toNat % 4096 := by
  simp only [fieldNNN, BitVec.extractLsb'_toNat, Nat.shiftRight_eq_div_pow]
  omega

/-! ### The built words as numbers -/

theorem wordOfNibbles_toNat (op x y n : Nibble) :
    (wordOfNibbles op x y n).toNat = op.val * 4096 + x.val * 256 + y.val * 16 + n.val := by
  simp only [wordOfNibbles, BitVec.toNat_ofNat]
  omega

theorem wordOfXNN_toNat (op x : Nibble) (nn : Byte) :
    (wordOfXNN op x nn).toNat = op.val * 4096 + x.val * 256 + nn.toNat := by
  have := nn.isLt
  simp only [wordOfXNN, BitVec.toNat_ofNat]
  omega

theorem wordOfNNN_toNat (op : Nibble) (nnn : Imm12) : (wordOfNNN op nnn).toNat = op.val * 4096 + nnn.toNat := by
  have := nnn.isLt
  simp only [wordOfNNN, BitVec.toNat_ofNat]
  omega

/-! ### The fields of a built word -/

@[simp] theorem fieldOp_wordOfNibbles (op x y n : Nibble) : fieldOp (wordOfNibbles op x y n) = op := by
  apply Fin.ext; rw [fieldOp_val, wordOfNibbles_toNat]; omega

@[simp] theorem fieldX_wordOfNibbles (op x y n : Nibble) : fieldX (wordOfNibbles op x y n) = x := by
  apply Fin.ext; rw [fieldX_val, wordOfNibbles_toNat]; omega

@[simp] theorem fieldY_wordOfNibbles (op x y n : Nibble) : fieldY (wordOfNibbles op x y n) = y := by
  apply Fin.ext; rw [fieldY_val, wordOfNibbles_toNat]; omega

@[simp] theorem fieldN_wordOfNibbles (op x y n : Nibble) : fieldN (wordOfNibbles op x y n) = n := by
  apply Fin.ext; rw [fieldN_val, wordOfNibbles_toNat]; omega

@[simp] theorem fieldOp_wordOfXNN (op x : Nibble) (nn : Byte) : fieldOp (wordOfXNN op x nn) = op := by
  have := nn.isLt
  apply Fin.ext; rw [fieldOp_val, wordOfXNN_toNat]; omega

@[simp] theorem fieldX_wordOfXNN (op x : Nibble) (nn : Byte) : fieldX (wordOfXNN op x nn) = x := by
  have := nn.isLt
  apply Fin.ext; rw [fieldX_val, wordOfXNN_toNat]; omega

@[simp] theorem fieldNN_wordOfXNN (op x : Nibble) (nn : Byte) : fieldNN (wordOfXNN op x nn) = nn := by
  have := nn.isLt
  apply BitVec.eq_of_toNat_eq; rw [fieldNN_toNat, wordOfXNN_toNat]; omega

@[simp] theorem fieldOp_wordOfNNN (op : Nibble) (nnn : Imm12) : fieldOp (wordOfNNN op nnn) = op := by
  have := nnn.isLt
  apply Fin.ext; rw [fieldOp_val, wordOfNNN_toNat]; omega

@[simp] theorem fieldNNN_wordOfNNN (op : Nibble) (nnn : Imm12) : fieldNNN (wordOfNNN op nnn) = nnn := by
  have := nnn.isLt
  apply BitVec.eq_of_toNat_eq; rw [fieldNNN_toNat, wordOfNNN_toNat]; omega

/-! ### A word rebuilt from its fields -/

theorem wordOfNibbles_fields (w : Word) : wordOfNibbles (fieldOp w) (fieldX w) (fieldY w) (fieldN w) = w := by
  apply BitVec.eq_of_toNat_eq
  rw [wordOfNibbles_toNat, fieldOp_val, fieldX_val, fieldY_val, fieldN_val]
  omega

theorem wordOfXNN_fields (w : Word) : wordOfXNN (fieldOp w) (fieldX w) (fieldNN w) = w := by
  apply BitVec.eq_of_toNat_eq
  rw [wordOfXNN_toNat, fieldOp_val, fieldX_val, fieldNN_toNat]
  omega

theorem wordOfNNN_fields (w : Word) : wordOfNNN (fieldOp w) (fieldNNN w) = w := by
  apply BitVec.eq_of_toNat_eq
  rw [wordOfNNN_toNat, fieldOp_val, fieldNNN_toNat]
  omega

/-! ### A word and its bytes -/

@[simp] theorem wordOfBytes_high_low (w : Word) : wordOfBytes (highByte w) (lowByte w) = w := by
  have := w.isLt
  apply BitVec.eq_of_toNat_eq
  simp only [wordOfBytes, highByte, lowByte, BitVec.toNat_ofNat, BitVec.extractLsb'_toNat, Nat.shiftRight_eq_div_pow]
  omega

/-- Decoding a word's two bytes is decoding the word, with nothing left over (R90). -/
theorem decodeBytes_bytesOfWord (w : Word) : decodeBytes (bytesOfWord w) = (decodeWord w).map (fun i => (i, [])) := by
  simp [bytesOfWord, decodeBytes]

end Sys2Proof
end

