-- ==== Sys2Proof/Laws/State.lean ====
section
/-! SUPPORT. What each named update leaves of each field: one lemma per field, so that no proof unfolds a record update. -/

namespace Sys2Proof.Machine

/-! ### setReg -/

@[simp] theorem setReg_v (s : State) (x : Reg) (b : Byte) : (s.setReg x b).v = s.v.set x.val b x.isLt := rfl
@[simp] theorem setReg_index (s : State) (x : Reg) (b : Byte) : (s.setReg x b).index = s.index := rfl
@[simp] theorem setReg_pc (s : State) (x : Reg) (b : Byte) : (s.setReg x b).pc = s.pc := rfl
@[simp] theorem setReg_stack (s : State) (x : Reg) (b : Byte) : (s.setReg x b).stack = s.stack := rfl
@[simp] theorem setReg_dt (s : State) (x : Reg) (b : Byte) : (s.setReg x b).dt = s.dt := rfl
@[simp] theorem setReg_st (s : State) (x : Reg) (b : Byte) : (s.setReg x b).st = s.st := rfl
@[simp] theorem setReg_mem (s : State) (x : Reg) (b : Byte) : (s.setReg x b).mem = s.mem := rfl
@[simp] theorem setReg_pix (s : State) (x : Reg) (b : Byte) : (s.setReg x b).pix = s.pix := rfl
@[simp] theorem setReg_keys (s : State) (x : Reg) (b : Byte) : (s.setReg x b).keys = s.keys := rfl
@[simp] theorem setReg_status (s : State) (x : Reg) (b : Byte) : (s.setReg x b).status = s.status := rfl
@[simp] theorem setReg_redraw (s : State) (x : Reg) (b : Byte) : (s.setReg x b).redraw = s.redraw := rfl
@[simp] theorem setReg_lastOpcode (s : State) (x : Reg) (b : Byte) : (s.setReg x b).lastOpcode = s.lastOpcode := rfl
@[simp] theorem setReg_config (s : State) (x : Reg) (b : Byte) : (s.setReg x b).config = s.config := rfl
@[simp] theorem setReg_report (s : State) (x : Reg) (b : Byte) : (s.setReg x b).report = s.report := rfl
@[simp] theorem setReg_schedule (s : State) (x : Reg) (b : Byte) : (s.setReg x b).schedule = s.schedule := rfl
@[simp] theorem setReg_byteSource (s : State) (x : Reg) (b : Byte) : (s.setReg x b).byteSource = s.byteSource := rfl
@[simp] theorem setReg_draws (s : State) (x : Reg) (b : Byte) : (s.setReg x b).draws = s.draws := rfl

/-! ### skipNext -/

@[simp] theorem skipNext_v (s : State) : (skipNext s).v = s.v := rfl
@[simp] theorem skipNext_index (s : State) : (skipNext s).index = s.index := rfl
@[simp] theorem skipNext_pc (s : State) : (skipNext s).pc = s.pc + 2 := rfl
@[simp] theorem skipNext_stack (s : State) : (skipNext s).stack = s.stack := rfl
@[simp] theorem skipNext_dt (s : State) : (skipNext s).dt = s.dt := rfl
@[simp] theorem skipNext_st (s : State) : (skipNext s).st = s.st := rfl
@[simp] theorem skipNext_mem (s : State) : (skipNext s).mem = s.mem := rfl
@[simp] theorem skipNext_pix (s : State) : (skipNext s).pix = s.pix := rfl
@[simp] theorem skipNext_keys (s : State) : (skipNext s).keys = s.keys := rfl
@[simp] theorem skipNext_status (s : State) : (skipNext s).status = s.status := rfl
@[simp] theorem skipNext_redraw (s : State) : (skipNext s).redraw = s.redraw := rfl
@[simp] theorem skipNext_lastOpcode (s : State) : (skipNext s).lastOpcode = s.lastOpcode := rfl
@[simp] theorem skipNext_config (s : State) : (skipNext s).config = s.config := rfl
@[simp] theorem skipNext_report (s : State) : (skipNext s).report = s.report := rfl
@[simp] theorem skipNext_schedule (s : State) : (skipNext s).schedule = s.schedule := rfl
@[simp] theorem skipNext_byteSource (s : State) : (skipNext s).byteSource = s.byteSource := rfl
@[simp] theorem skipNext_draws (s : State) : (skipNext s).draws = s.draws := rfl

/-! ### skipIf -/

@[simp] theorem skipIf_v (c : Bool) (s : State) : (skipIf c s).v = s.v := by
  unfold skipIf; split <;> rfl
@[simp] theorem skipIf_index (c : Bool) (s : State) : (skipIf c s).index = s.index := by
  unfold skipIf; split <;> rfl
@[simp] theorem skipIf_stack (c : Bool) (s : State) : (skipIf c s).stack = s.stack := by
  unfold skipIf; split <;> rfl
@[simp] theorem skipIf_dt (c : Bool) (s : State) : (skipIf c s).dt = s.dt := by
  unfold skipIf; split <;> rfl
@[simp] theorem skipIf_st (c : Bool) (s : State) : (skipIf c s).st = s.st := by
  unfold skipIf; split <;> rfl
@[simp] theorem skipIf_mem (c : Bool) (s : State) : (skipIf c s).mem = s.mem := by
  unfold skipIf; split <;> rfl
@[simp] theorem skipIf_pix (c : Bool) (s : State) : (skipIf c s).pix = s.pix := by
  unfold skipIf; split <;> rfl
@[simp] theorem skipIf_keys (c : Bool) (s : State) : (skipIf c s).keys = s.keys := by
  unfold skipIf; split <;> rfl
@[simp] theorem skipIf_status (c : Bool) (s : State) : (skipIf c s).status = s.status := by
  unfold skipIf; split <;> rfl
@[simp] theorem skipIf_redraw (c : Bool) (s : State) : (skipIf c s).redraw = s.redraw := by
  unfold skipIf; split <;> rfl
@[simp] theorem skipIf_lastOpcode (c : Bool) (s : State) : (skipIf c s).lastOpcode = s.lastOpcode := by
  unfold skipIf; split <;> rfl
@[simp] theorem skipIf_config (c : Bool) (s : State) : (skipIf c s).config = s.config := by
  unfold skipIf; split <;> rfl
@[simp] theorem skipIf_report (c : Bool) (s : State) : (skipIf c s).report = s.report := by
  unfold skipIf; split <;> rfl
@[simp] theorem skipIf_schedule (c : Bool) (s : State) : (skipIf c s).schedule = s.schedule := by
  unfold skipIf; split <;> rfl
@[simp] theorem skipIf_byteSource (c : Bool) (s : State) : (skipIf c s).byteSource = s.byteSource := by
  unfold skipIf; split <;> rfl
@[simp] theorem skipIf_draws (c : Bool) (s : State) : (skipIf c s).draws = s.draws := by
  unfold skipIf; split <;> rfl

theorem skipIf_pc (c : Bool) (s : State) : (skipIf c s).pc = if c then s.pc + 2 else s.pc := by
  unfold skipIf; split <;> rfl

/-! ### advance -/

@[simp] theorem advance_v (w : Word) (s : State) : (advance w s).v = s.v := rfl
@[simp] theorem advance_index (w : Word) (s : State) : (advance w s).index = s.index := rfl
@[simp] theorem advance_pc (w : Word) (s : State) : (advance w s).pc = s.pc + 2 := rfl
@[simp] theorem advance_stack (w : Word) (s : State) : (advance w s).stack = s.stack := rfl
@[simp] theorem advance_dt (w : Word) (s : State) : (advance w s).dt = s.dt := rfl
@[simp] theorem advance_st (w : Word) (s : State) : (advance w s).st = s.st := rfl
@[simp] theorem advance_mem (w : Word) (s : State) : (advance w s).mem = s.mem := rfl
@[simp] theorem advance_pix (w : Word) (s : State) : (advance w s).pix = s.pix := rfl
@[simp] theorem advance_keys (w : Word) (s : State) : (advance w s).keys = s.keys := rfl
@[simp] theorem advance_status (w : Word) (s : State) : (advance w s).status = s.status := rfl
@[simp] theorem advance_redraw (w : Word) (s : State) : (advance w s).redraw = s.redraw := rfl
@[simp] theorem advance_lastOpcode (w : Word) (s : State) : (advance w s).lastOpcode = w := rfl
@[simp] theorem advance_config (w : Word) (s : State) : (advance w s).config = s.config := rfl
@[simp] theorem advance_report (w : Word) (s : State) : (advance w s).report = s.report := rfl
@[simp] theorem advance_schedule (w : Word) (s : State) : (advance w s).schedule = s.schedule := rfl
@[simp] theorem advance_byteSource (w : Word) (s : State) : (advance w s).byteSource = s.byteSource := rfl
@[simp] theorem advance_draws (w : Word) (s : State) : (advance w s).draws = s.draws := rfl

/-! ### beginTransaction -/

@[simp] theorem beginTransaction_v (s : State) : (beginTransaction s).v = s.v := rfl
@[simp] theorem beginTransaction_index (s : State) : (beginTransaction s).index = s.index := rfl
@[simp] theorem beginTransaction_pc (s : State) : (beginTransaction s).pc = s.pc := rfl
@[simp] theorem beginTransaction_stack (s : State) : (beginTransaction s).stack = s.stack := rfl
@[simp] theorem beginTransaction_dt (s : State) : (beginTransaction s).dt = s.dt := rfl
@[simp] theorem beginTransaction_st (s : State) : (beginTransaction s).st = s.st := rfl
@[simp] theorem beginTransaction_mem (s : State) : (beginTransaction s).mem = s.mem := rfl
@[simp] theorem beginTransaction_pix (s : State) : (beginTransaction s).pix = s.pix := rfl
@[simp] theorem beginTransaction_keys (s : State) : (beginTransaction s).keys = s.keys := rfl
@[simp] theorem beginTransaction_status (s : State) : (beginTransaction s).status = s.status := rfl
@[simp] theorem beginTransaction_redraw (s : State) : (beginTransaction s).redraw = s.redraw := rfl
@[simp] theorem beginTransaction_lastOpcode (s : State) : (beginTransaction s).lastOpcode = s.lastOpcode := rfl
@[simp] theorem beginTransaction_config (s : State) : (beginTransaction s).config = s.config := rfl
@[simp] theorem beginTransaction_report (s : State) : (beginTransaction s).report = none := rfl
@[simp] theorem beginTransaction_schedule (s : State) : (beginTransaction s).schedule = s.schedule.tail := rfl
@[simp] theorem beginTransaction_byteSource (s : State) : (beginTransaction s).byteSource = s.byteSource := rfl
@[simp] theorem beginTransaction_draws (s : State) : (beginTransaction s).draws = s.draws := rfl

/-! ### updateTimers -/

@[simp] theorem updateTimers_v (s : State) : (updateTimers s).v = s.v := rfl
@[simp] theorem updateTimers_index (s : State) : (updateTimers s).index = s.index := rfl
@[simp] theorem updateTimers_pc (s : State) : (updateTimers s).pc = s.pc := rfl
@[simp] theorem updateTimers_stack (s : State) : (updateTimers s).stack = s.stack := rfl
@[simp] theorem updateTimers_dt (s : State) : (updateTimers s).dt = countDown s.dt := rfl
@[simp] theorem updateTimers_st (s : State) : (updateTimers s).st = countDown s.st := rfl
@[simp] theorem updateTimers_mem (s : State) : (updateTimers s).mem = s.mem := rfl
@[simp] theorem updateTimers_pix (s : State) : (updateTimers s).pix = s.pix := rfl
@[simp] theorem updateTimers_keys (s : State) : (updateTimers s).keys = s.keys := rfl
@[simp] theorem updateTimers_status (s : State) : (updateTimers s).status = s.status := rfl
@[simp] theorem updateTimers_redraw (s : State) : (updateTimers s).redraw = s.redraw := rfl
@[simp] theorem updateTimers_lastOpcode (s : State) : (updateTimers s).lastOpcode = s.lastOpcode := rfl
@[simp] theorem updateTimers_config (s : State) : (updateTimers s).config = s.config := rfl
@[simp] theorem updateTimers_report (s : State) : (updateTimers s).report = s.report := rfl
@[simp] theorem updateTimers_schedule (s : State) : (updateTimers s).schedule = s.schedule := rfl
@[simp] theorem updateTimers_byteSource (s : State) : (updateTimers s).byteSource = s.byteSource := rfl
@[simp] theorem updateTimers_draws (s : State) : (updateTimers s).draws = s.draws := rfl

/-! ### setKey -/

@[simp] theorem setKey_v (s : State) (c : Key) (b : Bool) : (setKey s c b).v = s.v := rfl
@[simp] theorem setKey_index (s : State) (c : Key) (b : Bool) : (setKey s c b).index = s.index := rfl
@[simp] theorem setKey_pc (s : State) (c : Key) (b : Bool) : (setKey s c b).pc = s.pc := rfl
@[simp] theorem setKey_stack (s : State) (c : Key) (b : Bool) : (setKey s c b).stack = s.stack := rfl
@[simp] theorem setKey_dt (s : State) (c : Key) (b : Bool) : (setKey s c b).dt = s.dt := rfl
@[simp] theorem setKey_st (s : State) (c : Key) (b : Bool) : (setKey s c b).st = s.st := rfl
@[simp] theorem setKey_mem (s : State) (c : Key) (b : Bool) : (setKey s c b).mem = s.mem := rfl
@[simp] theorem setKey_pix (s : State) (c : Key) (b : Bool) : (setKey s c b).pix = s.pix := rfl
@[simp] theorem setKey_keys (s : State) (c : Key) (b : Bool) : (setKey s c b).keys = s.keys.set c.val b c.isLt := rfl
@[simp] theorem setKey_status (s : State) (c : Key) (b : Bool) : (setKey s c b).status = s.status := rfl
@[simp] theorem setKey_redraw (s : State) (c : Key) (b : Bool) : (setKey s c b).redraw = s.redraw := rfl
@[simp] theorem setKey_lastOpcode (s : State) (c : Key) (b : Bool) : (setKey s c b).lastOpcode = s.lastOpcode := rfl
@[simp] theorem setKey_config (s : State) (c : Key) (b : Bool) : (setKey s c b).config = s.config := rfl
@[simp] theorem setKey_report (s : State) (c : Key) (b : Bool) : (setKey s c b).report = s.report := rfl
@[simp] theorem setKey_schedule (s : State) (c : Key) (b : Bool) : (setKey s c b).schedule = s.schedule := rfl
@[simp] theorem setKey_byteSource (s : State) (c : Key) (b : Bool) : (setKey s c b).byteSource = s.byteSource := rfl
@[simp] theorem setKey_draws (s : State) (c : Key) (b : Bool) : (setKey s c b).draws = s.draws := rfl

/-! ### clearRedraw -/

@[simp] theorem clearRedraw_v (s : State) : (clearRedraw s).v = s.v := rfl
@[simp] theorem clearRedraw_index (s : State) : (clearRedraw s).index = s.index := rfl
@[simp] theorem clearRedraw_pc (s : State) : (clearRedraw s).pc = s.pc := rfl
@[simp] theorem clearRedraw_stack (s : State) : (clearRedraw s).stack = s.stack := rfl
@[simp] theorem clearRedraw_dt (s : State) : (clearRedraw s).dt = s.dt := rfl
@[simp] theorem clearRedraw_st (s : State) : (clearRedraw s).st = s.st := rfl
@[simp] theorem clearRedraw_mem (s : State) : (clearRedraw s).mem = s.mem := rfl
@[simp] theorem clearRedraw_pix (s : State) : (clearRedraw s).pix = s.pix := rfl
@[simp] theorem clearRedraw_keys (s : State) : (clearRedraw s).keys = s.keys := rfl
@[simp] theorem clearRedraw_status (s : State) : (clearRedraw s).status = s.status := rfl
@[simp] theorem clearRedraw_redraw (s : State) : (clearRedraw s).redraw = false := rfl
@[simp] theorem clearRedraw_lastOpcode (s : State) : (clearRedraw s).lastOpcode = s.lastOpcode := rfl
@[simp] theorem clearRedraw_config (s : State) : (clearRedraw s).config = s.config := rfl
@[simp] theorem clearRedraw_report (s : State) : (clearRedraw s).report = s.report := rfl
@[simp] theorem clearRedraw_schedule (s : State) : (clearRedraw s).schedule = s.schedule := rfl
@[simp] theorem clearRedraw_byteSource (s : State) : (clearRedraw s).byteSource = s.byteSource := rfl
@[simp] theorem clearRedraw_draws (s : State) : (clearRedraw s).draws = s.draws := rfl

/-! ### Registers through updates -/

theorem reg_setReg (s : State) (x y : Reg) (b : Byte) : (s.setReg x b).reg y = if x = y then b else s.reg y := by
  simp only [State.reg, State.setReg, Vector.get_eq_getElem, Vector.getElem_set, Fin.ext_iff]

@[simp] theorem reg_setReg_same (s : State) (x : Reg) (b : Byte) : (s.setReg x b).reg x = b := by
  simp [reg_setReg]

theorem reg_setReg_other (s : State) {x y : Reg} (b : Byte) (h : y ≠ x) : (s.setReg x b).reg y = s.reg y := by
  simp [reg_setReg, Ne.symm h]

/-- A register's value depends on the register file alone. -/
theorem reg_of_v_eq {s t : State} (h : t.v = s.v) (x : Reg) : t.reg x = s.reg x := by
  simp [State.reg, h]

@[simp] theorem reg_skipIf (c : Bool) (s : State) (x : Reg) : (skipIf c s).reg x = s.reg x := reg_of_v_eq (by simp) x

@[simp] theorem reg_advance (w : Word) (s : State) (x : Reg) : (advance w s).reg x = s.reg x := rfl

@[simp] theorem reg_beginTransaction (s : State) (x : Reg) : (beginTransaction s).reg x = s.reg x := rfl

/-- Two register files that agree register by register are equal. -/
theorem v_ext {s t : State} (h : ∀ x, t.reg x = s.reg x) : t.v = s.v := by
  apply Vector.ext
  intro i hi
  exact h ⟨i, hi⟩

end Sys2Proof.Machine
end

