-- ==== Sys2Proof/Laws/Memory.lean ====
section
/-! SUPPORT. The laws of memory: read after write, and that every operation keeps the canonical form. -/

namespace Sys2Proof.Machine

/-! ### Reading after one write -/

theorem Memory.read_filter_same (m : Memory) (a : Nat) :
    Memory.read (m.filter (fun c => c.1 ≠ a)) a = unlistedByte a := by
  induction m with
  | nil => rfl
  | cons c m ih =>
    by_cases h : c.1 = a
    · simpa [h] using ih
    · simp only [ne_eq, h, not_false_eq_true, decide_true, List.filter_cons_of_pos, Memory.read]
      rw [if_neg (Ne.symm h)]
      exact ih

theorem Memory.read_filter_other (m : Memory) {a a' : Nat} (h : a' ≠ a) :
    Memory.read (m.filter (fun c => c.1 ≠ a)) a' = Memory.read m a' := by
  induction m with
  | nil => rfl
  | cons c m ih =>
    by_cases hc : c.1 = a
    · have hne : ¬ a' = c.1 := by omega
      simpa [hc, Memory.read, hne, h] using ih
    · simp only [ne_eq, hc, not_false_eq_true, decide_true, List.filter_cons_of_pos, Memory.read]
      rw [← ih]

theorem Memory.read_insert_other (c : Host.Cell) (m : Memory) {a : Nat} (h : a ≠ c.1) :
    Memory.read (Memory.insert c m) a = Memory.read m a := by
  induction m with
  | nil => simp [Memory.insert, Memory.read, h]
  | cons d m ih =>
    simp only [Memory.insert]
    split
    · simp [Memory.read, h]
    · simp [Memory.read, ih]

theorem Memory.read_insert_same (c : Host.Cell) (m : Memory) (h : ∀ d ∈ m, d.1 ≠ c.1) :
    Memory.read (Memory.insert c m) c.1 = c.2 := by
  induction m with
  | nil => simp [Memory.insert, Memory.read]
  | cons d m ih =>
    simp only [Memory.insert]
    split
    · simp [Memory.read]
    · have hd : c.1 ≠ d.1 := fun e => h d (by simp) e.symm
      simp [Memory.read, hd, ih (fun d' hd' => h d' (by simp [hd']))]

/-- A read after a write to the same address gives the byte written (R67, R75). -/
theorem Memory.read_write_same (m : Memory) (a : Nat) (v : Byte) : Memory.read (Memory.write m a v) a = v := by
  unfold Memory.write
  dsimp only
  split
  · rename_i h
    rw [Memory.read_filter_same, h]
  · exact Memory.read_insert_same (a, v) _ (fun d hd => by simpa using (List.mem_filter.mp hd).2)

/-- A write changes exactly the addressed byte (R67). -/
theorem Memory.read_write_other (m : Memory) {a a' : Nat} (v : Byte) (h : a' ≠ a) :
    Memory.read (Memory.write m a v) a' = Memory.read m a' := by
  unfold Memory.write
  dsimp only
  split
  · exact Memory.read_filter_other m h
  · rw [Memory.read_insert_other _ _ (show a' ≠ ((a, v) : Host.Cell).1 from h), Memory.read_filter_other m h]

/-! ### Reading after a block -/

theorem Memory.read_writeBytes_outside (bs : List Byte) (m : Memory) (base : Nat) {a : Nat}
    (h : a < base ∨ base + bs.length ≤ a) : Memory.read (Memory.writeBytes m base bs) a = Memory.read m a := by
  induction bs generalizing m base with
  | nil => rfl
  | cons b bs ih =>
    simp only [List.length_cons] at h
    rw [Memory.writeBytes, ih _ _ (by omega), Memory.read_write_other _ _ (by omega)]

theorem Memory.read_writeBytes_inside (bs : List Byte) (m : Memory) (base k : Nat) (h : k < bs.length) :
    Memory.read (Memory.writeBytes m base bs) (base + k) = bs[k] := by
  induction bs generalizing m base k with
  | nil => simp at h
  | cons b bs ih =>
    cases k with
    | zero =>
      rw [Memory.writeBytes, Memory.read_writeBytes_outside _ _ _ (by omega)]
      exact Memory.read_write_same m base b
    | succ k =>
      have := ih (Memory.write m base b) (base + 1) k (by simpa using h)
      rw [show base + (k + 1) = base + 1 + k by omega, Memory.writeBytes, this]
      simp

@[simp] theorem Memory.length_readBytes (m : Memory) (base n : Nat) : (Memory.readBytes m base n).length = n := by
  induction n generalizing base with
  | zero => rfl
  | succ n ih => simp [Memory.readBytes, ih]

theorem Memory.getElem_readBytes (m : Memory) (base n k : Nat) (h : k < (Memory.readBytes m base n).length) :
    (Memory.readBytes m base n)[k] = Memory.read m (base + k) := by
  induction n generalizing base k with
  | zero => simp [Memory.readBytes] at h
  | succ n ih =>
    cases k with
    | zero => simp [Memory.readBytes]
    | succ k =>
      simp only [Memory.readBytes, List.getElem_cons_succ]
      rw [ih]
      congr 1
      omega

theorem Memory.getD_readBytes (m : Memory) (base n k : Nat) (h : k < n) :
    (Memory.readBytes m base n).getD k 0 = Memory.read m (base + k) := by
  rw [List.getD_eq_getElem _ _ (by simpa using h), Memory.getElem_readBytes]

/-! ### The canonical form is kept -/

theorem Memory.wfFrom_mono {lo lo' : Nat} {m : Memory} (h : lo' ≤ lo) (hw : Memory.wfFrom lo m = true) :
    Memory.wfFrom lo' m = true := by
  cases m with
  | nil => rfl
  | cons c m =>
    simp only [Memory.wfFrom, Bool.and_eq_true, decide_eq_true_eq] at hw ⊢
    exact ⟨⟨⟨by omega, hw.1.1.2⟩, hw.1.2⟩, hw.2⟩

theorem Memory.wfFrom_filter {lo : Nat} {m : Memory} (p : Host.Cell → Bool) (hw : Memory.wfFrom lo m = true) :
    Memory.wfFrom lo (m.filter p) = true := by
  induction m generalizing lo with
  | nil => rfl
  | cons c m ih =>
    simp only [Memory.wfFrom, Bool.and_eq_true, decide_eq_true_eq] at hw
    rw [List.filter_cons]
    split
    · simp only [Memory.wfFrom, Bool.and_eq_true, decide_eq_true_eq]
      exact ⟨hw.1, ih hw.2⟩
    · exact Memory.wfFrom_mono (by omega) (ih hw.2)

theorem Memory.wfFrom_insert {lo : Nat} {m : Memory} (c : Host.Cell) (hw : Memory.wfFrom lo m = true)
    (hlo : lo ≤ c.1) (hhi : c.1 ≤ 0xFFF) (hv : c.2 ≠ unlistedByte c.1) (hne : ∀ d ∈ m, d.1 ≠ c.1) :
    Memory.wfFrom lo (Memory.insert c m) = true := by
  induction m generalizing lo with
  | nil => simp [Memory.insert, Memory.wfFrom, hlo, hhi, hv]
  | cons d m ih =>
    simp only [Memory.wfFrom, Bool.and_eq_true, decide_eq_true_eq] at hw
    have hd : d.1 ≠ c.1 := hne d (by simp)
    simp only [Memory.insert]
    split
    · simp only [Memory.wfFrom, Bool.and_eq_true, decide_eq_true_eq]
      exact ⟨⟨⟨hlo, hhi⟩, hv⟩, ⟨⟨by omega, hw.1.1.2⟩, hw.1.2⟩, hw.2⟩
    · simp only [Memory.wfFrom, Bool.and_eq_true, decide_eq_true_eq]
      exact ⟨hw.1, ih hw.2 (by omega) (fun d' hd' => hne d' (by simp [hd']))⟩

/-- A write to an address of the machine keeps the canonical form. -/
theorem Memory.wf_write {m : Memory} (a : Nat) (v : Byte) (hw : Memory.wf m = true) (ha : a ≤ 0xFFF) :
    Memory.wf (Memory.write m a v) = true := by
  unfold Memory.wf Memory.write at *
  dsimp only
  split
  · exact Memory.wfFrom_filter _ hw
  · rename_i h
    exact Memory.wfFrom_insert (a, v) (Memory.wfFrom_filter _ hw) (Nat.zero_le _) ha h
      (fun d hd => by simpa using (List.mem_filter.mp hd).2)

/-- A block inside the machine's addresses keeps the canonical form. -/
theorem Memory.wf_writeBytes {m : Memory} (base : Nat) (bs : List Byte) (hw : Memory.wf m = true)
    (h : base + bs.length ≤ 0x1000) : Memory.wf (Memory.writeBytes m base bs) = true := by
  induction bs generalizing m base with
  | nil => exact hw
  | cons b bs ih =>
    simp only [List.length_cons] at h
    exact ih (base + 1) (Memory.wf_write base b hw (by omega)) (by omega)

/-- Reset memory, which lists nothing, is canonical. -/
theorem Memory.wf_reset : Memory.wf State.reset.mem = true := rfl

theorem Memory.read_of_lt {lo : Nat} {m : Memory} (hw : Memory.wfFrom lo m = true) {a : Nat} (h : a < lo) :
    Memory.read m a = unlistedByte a := by
  induction m generalizing lo with
  | nil => rfl
  | cons c m ih =>
    simp only [Memory.wfFrom, Bool.and_eq_true, decide_eq_true_eq] at hw
    have hac : a ≠ c.1 := by omega
    simp only [Memory.read, if_neg hac]
    exact ih hw.2 (by omega)

/-- Equal memories are equal data: canonical memories that read alike are the same list. -/
theorem Memory.eq_of_read_eq {lo : Nat} {m m' : Memory} (hw : Memory.wfFrom lo m = true)
    (hw' : Memory.wfFrom lo m' = true) (h : ∀ a, Memory.read m a = Memory.read m' a) : m = m' := by
  induction m generalizing lo m' with
  | nil =>
    cases m' with
    | nil => rfl
    | cons c m' =>
      simp only [Memory.wfFrom, Bool.and_eq_true, decide_eq_true_eq] at hw'
      have := h c.1
      simp only [Memory.read, if_pos] at this
      exact absurd this.symm hw'.1.2
  | cons c m ih =>
    cases m' with
    | nil =>
      simp only [Memory.wfFrom, Bool.and_eq_true, decide_eq_true_eq] at hw
      have := h c.1
      simp only [Memory.read, if_pos] at this
      exact absurd this hw.1.2
    | cons d m' =>
      simp only [Memory.wfFrom, Bool.and_eq_true, decide_eq_true_eq] at hw hw'
      have hcd : c.1 = d.1 := by
        rcases Nat.lt_trichotomy c.1 d.1 with hlt | heq | hgt
        · have := h c.1
          have hne : c.1 ≠ d.1 := by omega
          simp only [Memory.read, if_pos, if_neg hne] at this
          rw [Memory.read_of_lt hw'.2 (by omega)] at this
          exact absurd this hw.1.2
        · exact heq
        · have := h d.1
          have hne : d.1 ≠ c.1 := by omega
          simp only [Memory.read, if_pos, if_neg hne] at this
          rw [Memory.read_of_lt hw.2 (by omega)] at this
          exact absurd this.symm hw'.1.2
      have hcb : c.2 = d.2 := by
        have := h c.1
        simpa only [Memory.read, if_pos, if_pos hcd] using this
      have hrest : m = m' := by
        refine ih hw.2 (by rw [hcd]; exact hw'.2) (fun a => ?_)
        by_cases ha : a = c.1
        · rw [Memory.read_of_lt hw.2 (by omega), Memory.read_of_lt hw'.2 (by omega)]
        · have := h a
          simpa only [Memory.read, if_neg ha, if_neg (hcd ▸ ha : ¬ a = d.1)] using this
      have hcell : c = d := Prod.ext hcd hcb
      rw [hrest, hcell]

end Sys2Proof.Machine
end

