-- ==== Sys2Proof/Laws/Ops.lean ====
section
/-! SUPPORT. What each shared operation can do, said once: checked accesses, block moves of registers, the call stack, the
random source, raising an error, the cycle.  Later proofs cite these and open none of the definitions. -/

namespace Sys2Proof.Machine

/-! ### The range check -/

theorem rangeError_none {base count : Nat} : rangeError base count = none ↔ count = 0 ∨ base + count - 1 ≤ 0xFFF := by
  unfold rangeError
  split
  · simp; omega
  · simp; omega

theorem rangeError_some {base count : Nat} {e : FatalError} (h : rangeError base count = some e) :
    0 < count ∧ 0xFFF < base + count - 1 ∧ e = .memoryOutOfBounds (max base 0x1000) := by
  unfold rangeError at h
  split at h
  · rename_i hc
    exact ⟨hc.1, hc.2, (Option.some.inj h).symm⟩
  · cases h

theorem rangeError_of_out {base count : Nat} (hc : 0 < count) (h : 0xFFF < base + count - 1) :
    rangeError base count = some (.memoryOutOfBounds (max base 0x1000)) := by
  unfold rangeError
  rw [if_pos ⟨hc, h⟩]

theorem readBlock_ok {s : State} {base count : Nat} (h : count = 0 ∨ base + count - 1 ≤ 0xFFF) :
    readBlock s base count = .ok (Memory.readBytes s.mem base count) := by
  unfold readBlock
  rw [rangeError_none.mpr h]

theorem readBlock_error {s : State} {base count : Nat} (hc : 0 < count) (h : 0xFFF < base + count - 1) :
    readBlock s base count = .error (.memoryOutOfBounds (max base 0x1000)) := by
  unfold readBlock
  rw [rangeError_of_out hc h]

/-- Everything a checked read can answer. -/
theorem readBlock_cases (s : State) (base count : Nat) :
    ((count = 0 ∨ base + count - 1 ≤ 0xFFF) ∧ readBlock s base count = .ok (Memory.readBytes s.mem base count)) ∨
    (0 < count ∧ 0xFFF < base + count - 1 ∧
      readBlock s base count = .error (.memoryOutOfBounds (max base 0x1000))) := by
  by_cases h : count = 0 ∨ base + count - 1 ≤ 0xFFF
  · exact .inl ⟨h, readBlock_ok h⟩
  · exact .inr ⟨by omega, by omega, readBlock_error (by omega) (by omega)⟩

theorem writeBlock_ok {s : State} {base : Nat} {bs : List Byte} (h : bs.length = 0 ∨ base + bs.length - 1 ≤ 0xFFF) :
    writeBlock s base bs = .ok { s with mem := Memory.writeBytes s.mem base bs } := by
  unfold writeBlock
  rw [rangeError_none.mpr h]

theorem writeBlock_error {s : State} {base : Nat} {bs : List Byte} (hc : 0 < bs.length)
    (h : 0xFFF < base + bs.length - 1) :
    writeBlock s base bs = .error (.memoryOutOfBounds (max base 0x1000)) := by
  unfold writeBlock
  rw [rangeError_of_out hc h]

/-- Everything a checked store can answer. -/
theorem writeBlock_cases (s : State) (base : Nat) (bs : List Byte) :
    ((bs.length = 0 ∨ base + bs.length - 1 ≤ 0xFFF) ∧
      writeBlock s base bs = .ok { s with mem := Memory.writeBytes s.mem base bs }) ∨
    (0 < bs.length ∧ 0xFFF < base + bs.length - 1 ∧
      writeBlock s base bs = .error (.memoryOutOfBounds (max base 0x1000))) := by
  by_cases h : bs.length = 0 ∨ base + bs.length - 1 ≤ 0xFFF
  · exact .inl ⟨h, writeBlock_ok h⟩
  · exact .inr ⟨by omega, by omega, writeBlock_error (by omega) (by omega)⟩

/-! ### Registers moved as a block -/

theorem length_regs (s : State) {k : Nat} (h : k ≤ 16) : (s.regs k).length = k := by
  simp [State.regs, h]

theorem getElem_regs (s : State) (k i : Nat) (h : i < (s.regs k).length) :
    (s.regs k)[i] = s.reg ⟨i, by simp [State.regs] at h; omega⟩ := by
  simp [State.regs, State.reg, Vector.get_eq_getElem]

/-- Loading a block writes the registers it reaches, from the block, and no other. -/
theorem reg_setRegs (bs : List Byte) (s : State) (i : Nat) (x : Reg) :
    (s.setRegs i bs).reg x = if h : i ≤ x.val ∧ x.val - i < bs.length then bs[x.val - i] else s.reg x := by
  induction bs generalizing s i with
  | nil => simp [State.setRegs]
  | cons b bs ih =>
    unfold State.setRegs
    split
    · rename_i hi
      rw [ih]
      by_cases hx : x.val = i
      · have hx' : (⟨i, hi⟩ : Reg) = x := Fin.ext hx.symm
        have h1 : ¬ (i + 1 ≤ x.val ∧ x.val - (i + 1) < bs.length) := by omega
        rw [dif_neg h1, reg_setReg, if_pos hx', dif_pos ⟨by omega, by simp [hx]⟩]
        simp [hx]
      · have hx' : (⟨i, hi⟩ : Reg) ≠ x := fun e => hx (by rw [← e])
        rw [reg_setReg, if_neg hx']
        by_cases h1 : i + 1 ≤ x.val ∧ x.val - (i + 1) < bs.length
        · rw [dif_pos h1, dif_pos ⟨by omega, by simp only [List.length_cons]; omega⟩]
          have : x.val - i = x.val - (i + 1) + 1 := by omega
          simp [this]
        · rw [dif_neg h1, dif_neg]
          simp only [List.length_cons]
          omega
    · rename_i hi
      have := x.isLt
      rw [dif_neg]
      omega

/-- A block load touches the register file alone. -/
theorem setRegs_eq (bs : List Byte) (s : State) (i : Nat) : ∃ v, s.setRegs i bs = { s with v := v } := by
  induction bs generalizing s i with
  | nil => exact ⟨s.v, rfl⟩
  | cons b bs ih =>
    unfold State.setRegs
    split
    · obtain ⟨v, hv⟩ := ih (s.setReg _ b) (i + 1)
      exact ⟨v, hv⟩
    · exact ⟨s.v, rfl⟩

/-! ### The call stack -/

theorem push_ok {s : State} {a : Word} (h : s.stack.length < s.config.stackDepth) :
    push s a = .ok { s with stack := a :: s.stack } := by
  unfold push
  rw [if_pos h]

theorem push_error {s : State} {a : Word} (h : s.config.stackDepth ≤ s.stack.length) :
    push s a = .error .stackOverflow := by
  unfold push
  rw [if_neg (by omega)]

theorem pop_ok {s : State} {a : Word} {rest : List Word} (h : s.stack = a :: rest) :
    pop s = .ok (a, { s with stack := rest }) := by
  unfold pop
  rw [h]

theorem pop_error {s : State} (h : s.stack = []) : pop s = .error .stackUnderflow := by
  unfold pop
  rw [h]

/-! ### The random source -/

/-- A draw touches the random source alone. -/
theorem drawByte_eq (s : State) :
    ∃ src k, (drawByte s).2 = { s with byteSource := src, draws := k } := by
  unfold drawByte
  split
  · exact ⟨_, s.draws, rfl⟩
  · exact ⟨s.byteSource, _, rfl⟩

/-! ### Raising or going on -/

@[simp] theorem orRaise_ok {α : Type} (s : State) (a : α) (k : α → State) : orRaise s (.ok a) k = .next (k a) := rfl

@[simp] theorem orRaise_error {α : Type} (s : State) (e : FatalError) (k : α → State) :
    orRaise s (.error e : Except FatalError α) k = raiseFatal e s := rfl

theorem orRaise_of_ok {α : Type} (s : State) {r : Except FatalError α} {a : α} (k : α → State) (h : r = .ok a) :
    orRaise s r k = .next (k a) := by
  rw [h, orRaise_ok]

theorem orRaise_of_error {α : Type} (s : State) {r : Except FatalError α} {e : FatalError} (k : α → State)
    (h : r = .error e) : orRaise s r k = raiseFatal e s := by
  rw [h, orRaise_error]

/-- A checked operation's instruction either goes on with the answer or raises the error. -/
theorem orRaise_cases {α : Type} (s : State) (r : Except FatalError α) (k : α → State) :
    (∃ a, r = .ok a ∧ orRaise s r k = .next (k a)) ∨ (∃ e, r = .error e ∧ orRaise s r k = raiseFatal e s) := by
  cases r with
  | ok a => exact .inl ⟨a, rfl, rfl⟩
  | error e => exact .inr ⟨e, rfl, rfl⟩

/-! ### The cycle -/

/-- A fetch in range answers the word at PC (R122). -/
theorem fetch_ok {s : State} (h : s.pc.toNat + 1 ≤ 0xFFF) : fetch s = .ok (wordAtPc s) := by
  unfold fetch
  rw [readBlock_ok (by omega)]
  rfl

/-- A fetch out of range raises the error with the lowest invalid address (R122, R261). -/
theorem fetch_error {s : State} (h : 0xFFF < s.pc.toNat + 1) :
    fetch s = .error (.memoryOutOfBounds (max s.pc.toNat 0x1000)) := by
  unfold fetch
  rw [readBlock_error (by omega) (by omega)]

theorem fetch_begin (s : State) : fetch (beginTransaction s) = fetch s := rfl

theorem advance_begin (s : State) : advance (wordAtPc s) (beginTransaction s) = afterFetch s := rfl

/-- A step whose cycle executes runs the word at PC on the state after the fetch (R120). -/
theorem step_executes {s : State} (h : CycleExecutes s) : step s = executeWord (wordAtPc s) (afterFetch s) := by
  obtain ⟨hn, hr, hp⟩ := h
  unfold step
  rw [hn]
  show cycle (beginTransaction s) = _
  unfold cycle
  rw [show (beginTransaction s).status = .running from hr]
  dsimp only
  rw [fetch_begin, fetch_ok hp]
  rfl

/-- Everything a step can be: a transaction other than a cycle, a gated cycle, a faulting fetch, or an executing cycle. -/
theorem step_cases (s : State) :
    (nextTransaction s ≠ .cycle ∧ step s = perform (nextTransaction s) (beginTransaction s)) ∨
    (nextTransaction s = .cycle ∧ s.status ≠ .running ∧ step s = .next (beginTransaction s)) ∨
    (nextTransaction s = .cycle ∧ s.status = .running ∧ 0xFFF < s.pc.toNat + 1 ∧
      step s = raiseFatal (.memoryOutOfBounds (max s.pc.toNat 0x1000)) (beginTransaction s)) ∨
    (CycleExecutes s ∧ step s = executeWord (wordAtPc s) (afterFetch s)) := by
  by_cases hn : nextTransaction s = .cycle
  · right
    have hstep : step s = cycle (beginTransaction s) := by unfold step; rw [hn]; rfl
    cases hs : s.status with
    | running =>
      right
      by_cases hp : s.pc.toNat + 1 ≤ 0xFFF
      · exact .inr ⟨⟨hn, hs, hp⟩, step_executes ⟨hn, hs, hp⟩⟩
      · refine .inl ⟨hn, rfl, by omega, ?_⟩
        rw [hstep]
        unfold cycle
        rw [show (beginTransaction s).status = .running from hs]
        dsimp only
        rw [fetch_begin, fetch_error (by omega)]
    | waitingForKey t =>
      refine .inl ⟨hn, by simp, ?_⟩
      rw [hstep]
      unfold cycle
      rw [show (beginTransaction s).status = .waitingForKey t from hs]
    | faulted e =>
      refine .inl ⟨hn, by simp, ?_⟩
      rw [hstep]
      unfold cycle
      rw [show (beginTransaction s).status = .faulted e from hs]
  · exact .inl ⟨hn, rfl⟩

end Sys2Proof.Machine
end

