-- ==== Sys2Proof/Laws/Pixels.lean ====
section
/-! SUPPORT. The laws of pixel cells: what toggling one does to each, and when two buffers are equal. -/

namespace Sys2Proof.Machine

/-- Toggling cell `k` inverts it and leaves every other cell alone. -/
theorem Pixels.cell_toggle (p : Pixels) {k : Nat} (j : Nat) (hk : k < 2048) :
    Pixels.cell (Pixels.toggle p k) j = (Pixels.cell p j ^^ decide (j = k)) := by
  have h32 : k / 64 < 32 := by omega
  unfold Pixels.cell Pixels.toggle
  rw [dif_pos h32]
  by_cases hj : j / 64 < 32
  · rw [dif_pos hj, dif_pos hj, Vector.getElem_set]
    by_cases hrow : k / 64 = j / 64
    · rw [if_pos hrow, BitVec.getLsbD_xor, BitVec.getLsbD_twoPow]
      simp only [hrow]
      congr 1
      have : (decide (k % 64 < 64) && decide (k % 64 = j % 64)) = decide (j = k) := by
        rw [← Bool.decide_and]
        apply decide_eq_decide.mpr
        omega
      exact this
    · rw [if_neg hrow]
      have : ¬ j = k := fun e => hrow (by rw [e])
      simp [this]
  · rw [dif_neg hj, dif_neg hj]
    have : ¬ j = k := by omega
    simp [this]

theorem Pixels.cell_outside (p : Pixels) {j : Nat} (h : 2048 ≤ j) : Pixels.cell p j = false := by
  unfold Pixels.cell
  rw [dif_neg (by omega)]

/-- Buffers with the same 2048 cells are equal. -/
theorem Pixels.ext_cells {p q : Pixels} (h : ∀ k, k < 2048 → Pixels.cell p k = Pixels.cell q k) : p = q := by
  apply Vector.ext
  intro r hr
  apply BitVec.eq_of_getLsbD_eq
  intro c hc
  have := h (r * 64 + c) (by omega)
  have hdiv : (r * 64 + c) / 64 = r := by omega
  have hmod : (r * 64 + c) % 64 = c := by omega
  unfold Pixels.cell at this
  rw [dif_pos (by omega), dif_pos (by omega)] at this
  simpa only [hdiv, hmod] using this

@[simp] theorem Pixels.cell_blank (k : Nat) : Pixels.cell blankPixels k = false := by
  unfold Pixels.cell blankPixels
  split
  · simp
  · rfl

/-- Distinct columns and rows are distinct cells. -/
theorem pixelIndex_inj {c r c' r' : Nat} (hc : c < 64) (hc' : c' < 64) :
    pixelIndex c r = pixelIndex c' r' ↔ c = c' ∧ r = r' := by
  unfold pixelIndex
  omega

theorem pixelIndex_lt {c r : Nat} (hc : c < 64) (hr : r < 32) : pixelIndex c r < 2048 := by
  unfold pixelIndex
  omega

end Sys2Proof.Machine
end

