-- ==== Sys2Proof/Laws/Sprite.lean ====
section
/-! SUPPORT. What drawing a sprite does, said once (spec/44_display.md R216): it toggles a list of distinct cells, once each,
and the collision bit says whether one of them was set before. -/

namespace Sys2Proof.Machine

/-- The cells under the set bits of the sprite's rows, top first, the first of them being row `r`. -/
def spriteCells (x0 y0 : Nat) : Nat → List Byte → List Nat
  | _, [] => []
  | r, b :: rows => ((List.range 8).filter (spriteBit b)).map (fun c => spriteCell x0 y0 c r) ++ spriteCells x0 y0 (r + 1) rows

/-- Cells plotted one after the other. -/
def plotAll (ks : List Nat) (d : Drawing) : Drawing := ks.foldl (fun d k => plot k d) d

theorem foldl_if_plot (p : Nat → Bool) (f : Nat → Nat) (cs : List Nat) (d : Drawing) :
    cs.foldl (fun d c => if p c then plot (f c) d else d) d = plotAll ((cs.filter p).map f) d := by
  induction cs generalizing d with
  | nil => rfl
  | cons c cs ih =>
    rw [List.foldl_cons, ih, List.filter_cons]
    split <;> rfl

theorem drawRows_eq_plotAll (x0 y0 r : Nat) (rows : List Byte) (d : Drawing) :
    drawRows x0 y0 r rows d = plotAll (spriteCells x0 y0 r rows) d := by
  induction rows generalizing r d with
  | nil => rfl
  | cons b rows ih =>
    rw [drawRows, ih, drawRow, foldl_if_plot, spriteCells]
    simp only [plotAll, List.foldl_append]

theorem spriteCell_lt (x0 y0 c r : Nat) : spriteCell x0 y0 c r < 2048 :=
  pixelIndex_lt (Nat.mod_lt _ (by decide)) (Nat.mod_lt _ (by decide))

theorem mem_spriteCells {x0 y0 r : Nat} {rows : List Byte} {k : Nat} :
    k ∈ spriteCells x0 y0 r rows ↔
      ∃ j, j < rows.length ∧ ∃ c, c < 8 ∧ spriteBit (rows.getD j 0) c = true ∧ k = spriteCell x0 y0 c (r + j) := by
  induction rows generalizing r with
  | nil => simp [spriteCells]
  | cons b rows ih =>
    simp only [spriteCells, List.mem_append, List.mem_map, List.mem_filter, List.mem_range, ih, List.length_cons]
    constructor
    · rintro (⟨c, ⟨hc, hb⟩, rfl⟩ | ⟨j, hj, c, hc, hb, rfl⟩)
      · exact ⟨0, by omega, c, hc, by simpa using hb, by simp⟩
      · exact ⟨j + 1, by omega, c, hc, by simpa using hb, by rw [show r + (j + 1) = r + 1 + j by omega]⟩
    · rintro ⟨j, hj, c, hc, hb, rfl⟩
      cases j with
      | zero => exact .inl ⟨c, ⟨hc, by simpa using hb⟩, by simp⟩
      | succ j => exact .inr ⟨j, by omega, c, hc, by simpa using hb, by rw [show r + (j + 1) = r + 1 + j by omega]⟩

theorem spriteCells_lt {x0 y0 r : Nat} {rows : List Byte} {k : Nat} (h : k ∈ spriteCells x0 y0 r rows) : k < 2048 := by
  obtain ⟨j, _, c, _, _, rfl⟩ := mem_spriteCells.mp h
  exact spriteCell_lt ..

/-- Sprite positions fewer than 64 columns and 32 rows apart are the same cell only if they are the same position. -/
theorem spriteCell_inj {x0 y0 c r c' r' : Nat} (hc : c < 8) (hc' : c' < 8) (hr : r < 32) (hr' : r' < 32)
    (h : spriteCell x0 y0 c r = spriteCell x0 y0 c' r') : c = c' ∧ r = r' := by
  have := (pixelIndex_inj (Nat.mod_lt _ (by decide)) (Nat.mod_lt _ (by decide))).mp h
  omega

/-- Within one sprite of at most 32 rows no cell is addressed twice (R216). -/
theorem nodup_spriteCells {x0 y0 r : Nat} {rows : List Byte} (h : r + rows.length ≤ 32) :
    (spriteCells x0 y0 r rows).Nodup := by
  induction rows generalizing r with
  | nil => simp [spriteCells]
  | cons b rows ih =>
    simp only [List.length_cons] at h
    rw [spriteCells, List.nodup_append]
    refine ⟨?_, ih (by omega), ?_⟩
    · refine List.Nodup.map_on ?_ (List.nodup_range.filter _)
      intro c hc c' hc' he
      simp only [List.mem_filter, List.mem_range] at hc hc'
      exact (spriteCell_inj hc.1 hc'.1 (by omega) (by omega) he).1
    · intro a ha k hk he
      subst he
      simp only [List.mem_map, List.mem_filter, List.mem_range] at ha
      obtain ⟨c, ⟨hc, _⟩, rfl⟩ := ha
      obtain ⟨j, hj, c', hc', _, he⟩ := mem_spriteCells.mp hk
      have := (spriteCell_inj hc hc' (by omega) (by omega) he).2
      omega

/-- Plotting distinct cells inverts each of them and no other. -/
theorem cell_plotAll (ks : List Nat) (d : Drawing) (hnd : ks.Nodup) (hlt : ∀ k ∈ ks, k < 2048) (j : Nat) :
    Pixels.cell (plotAll ks d).1 j = (Pixels.cell d.1 j ^^ decide (j ∈ ks)) := by
  induction ks generalizing d with
  | nil => simp [plotAll]
  | cons k ks ih =>
    have hk : k ∉ ks := (List.nodup_cons.mp hnd).1
    rw [show plotAll (k :: ks) d = plotAll ks (plot k d) from rfl,
      ih _ (List.nodup_cons.mp hnd).2 (fun k' h' => hlt k' (List.mem_cons_of_mem _ h')), plot,
      Pixels.cell_toggle _ _ (hlt k (List.mem_cons_self ..))]
    by_cases hj : j = k
    · subst hj; simp [hk]
    · simp [hj]

/-- Plotting distinct cells sets the collision bit iff one of them was set before. -/
theorem collision_plotAll (ks : List Nat) (d : Drawing) (hnd : ks.Nodup) (hlt : ∀ k ∈ ks, k < 2048) :
    (plotAll ks d).2 = (d.2 || ks.any (fun k => Pixels.cell d.1 k)) := by
  induction ks generalizing d with
  | nil => simp [plotAll]
  | cons k ks ih =>
    have hk : k ∉ ks := (List.nodup_cons.mp hnd).1
    have hrest : ks.any (fun j => Pixels.cell (plot k d).1 j) = ks.any (fun j => Pixels.cell d.1 j) := by
      have hcell : ∀ j ∈ ks, Pixels.cell (plot k d).1 j = Pixels.cell d.1 j := by
        intro j hj
        have hjk : j ≠ k := fun e => hk (e ▸ hj)
        rw [plot, Pixels.cell_toggle _ _ (hlt k (List.mem_cons_self ..))]
        simp [hjk]
      rw [Bool.eq_iff_iff, List.any_eq_true, List.any_eq_true]
      exact exists_congr (fun j => and_congr_right (fun hj => by rw [hcell j hj]))
    rw [show plotAll (k :: ks) d = plotAll ks (plot k d) from rfl,
      ih _ (List.nodup_cons.mp hnd).2 (fun k' h' => hlt k' (List.mem_cons_of_mem _ h')), hrest, List.any_cons]
    simp only [plot, Bool.or_assoc]

/-- A drawn sprite inverts the cells it covers and no other. -/
theorem cell_drawSprite (vx vy : Byte) (rows : List Byte) (p : Pixels) (h : rows.length ≤ 32) (j : Nat) :
    Pixels.cell (drawSprite vx vy rows p).1 j =
      (Pixels.cell p j ^^ decide (j ∈ spriteCells (originCol vx) (originRow vy) 0 rows)) := by
  rw [drawSprite, drawRows_eq_plotAll]
  exact cell_plotAll _ _ (nodup_spriteCells (by omega)) (fun _ => spriteCells_lt) j

/-- A drawn sprite collides iff a cell it covers was set. -/
theorem collision_drawSprite (vx vy : Byte) (rows : List Byte) (p : Pixels) (h : rows.length ≤ 32) :
    (drawSprite vx vy rows p).2 =
      (spriteCells (originCol vx) (originRow vy) 0 rows).any (fun k => Pixels.cell p k) := by
  rw [drawSprite, drawRows_eq_plotAll, collision_plotAll _ _ (nodup_spriteCells (by omega)) (fun _ => spriteCells_lt)]
  simp

end Sys2Proof.Machine
end

