-- ==== Sys2Proof/Laws/Exec.lean ====
section
/-! SUPPORT. What the six instructions that can raise an error can answer, said once each: either the whole effect or the
fault alone.  The other 28 have one answer, which their definitions show. -/

namespace Sys2Proof.Machine

/-- The state in which a fatal error leaves the machine. -/
def faultState (e : FatalError) (s : State) : State := { s with status := .faulted e, report := some (.fatal e) }

theorem raiseFatal_eq (e : FatalError) (s : State) : raiseFatal e s = .next (faultState e s) := rfl

theorem next_inj {s t : State} (h : (Host.Outcome.next s : Result) = .next t) : t = s := by
  cases h; rfl

theorem execRet_cases {s t : State} (h : execRet s = .next t) :
    (∃ a rest, s.stack = a :: rest ∧ t = { s with stack := rest, pc := a + 2 }) ∨
    (s.stack = [] ∧ t = faultState .stackUnderflow s) := by
  unfold execRet at h
  cases hs : s.stack with
  | nil => exact .inr ⟨rfl, next_inj ((orRaise_of_error _ _ (pop_error hs)).symm.trans h)⟩
  | cons a rest => exact .inl ⟨a, rest, rfl, next_inj ((orRaise_of_ok _ _ (pop_ok hs)).symm.trans h)⟩

theorem execCall_cases {nnn : Imm12} {s t : State} (h : execCall nnn s = .next t) :
    (s.stack.length < s.config.stackDepth ∧ t = { s with stack := (s.pc - 2) :: s.stack, pc := zextImm12 nnn }) ∨
    (s.config.stackDepth ≤ s.stack.length ∧ t = faultState .stackOverflow s) := by
  unfold execCall at h
  by_cases hs : s.stack.length < s.config.stackDepth
  · exact .inl ⟨hs, next_inj ((orRaise_of_ok _ _ (push_ok hs)).symm.trans h)⟩
  · exact .inr ⟨by omega, next_inj ((orRaise_of_error _ _ (push_error (by omega))).symm.trans h)⟩

theorem execDrw_cases {x y : Reg} {n : Nibble} {s t : State} (h : execDrwVxVyN x y n s = .next t) :
    (SpriteInRange s n ∧ ∃ d, d = drawSprite (s.reg x) (s.reg y) (Memory.readBytes s.mem (dataAddr s 0) n.val) s.pix ∧
      t = { ({ s with pix := d.1 }).setReg regF (flagByte d.2) with redraw := true }) ∨
    (0 < n.val ∧ 0xFFF < dataAddr s (n.val - 1) ∧ t = faultState (.memoryOutOfBounds (max s.index.toNat 0x1000)) s) := by
  unfold execDrwVxVyN at h
  rcases readBlock_cases s (dataAddr s 0) n.val with ⟨hr, ho⟩ | ⟨hc, hr, he⟩
  · refine .inl ⟨?_, _, rfl, next_inj ((orRaise_of_ok _ _ ho).symm.trans h)⟩
    unfold SpriteInRange dataAddr at *
    omega
  · refine .inr ⟨hc, ?_, next_inj ((orRaise_of_error _ _ he).symm.trans h)⟩
    unfold dataAddr at *
    omega

theorem length_bcdDigits (b : Byte) : (bcdDigits b).length = 3 := rfl

theorem execLdB_cases {x : Reg} {s t : State} (h : execLdBVx x s = .next t) :
    (dataAddr s 2 ≤ 0xFFF ∧ t = { s with mem := Memory.writeBytes s.mem (dataAddr s 0) (bcdDigits (s.reg x)) }) ∨
    (0xFFF < dataAddr s 2 ∧ t = faultState (.memoryOutOfBounds (max s.index.toNat 0x1000)) s) := by
  unfold execLdBVx at h
  rcases writeBlock_cases s (dataAddr s 0) (bcdDigits (s.reg x)) with ⟨hr, ho⟩ | ⟨hc, hr, he⟩
  · refine .inl ⟨?_, next_inj ((orRaise_of_ok _ _ ho).symm.trans h)⟩
    rw [length_bcdDigits] at hr
    unfold dataAddr at *
    omega
  · refine .inr ⟨?_, next_inj ((orRaise_of_error _ _ he).symm.trans h)⟩
    rw [length_bcdDigits] at hr
    unfold dataAddr at *
    omega

theorem length_blockRegs (s : State) (x : Reg) : (s.regs (blockCount x)).length = x.val + 1 :=
  length_regs s (by simp only [blockCount]; omega)

theorem execLdMem_cases {x : Reg} {s t : State} (h : execLdMemVx x s = .next t) :
    (dataAddr s x.val ≤ 0xFFF ∧ t = { s with mem := Memory.writeBytes s.mem (dataAddr s 0) (s.regs (blockCount x)) }) ∨
    (0xFFF < dataAddr s x.val ∧ t = faultState (.memoryOutOfBounds (max s.index.toNat 0x1000)) s) := by
  unfold execLdMemVx at h
  rcases writeBlock_cases s (dataAddr s 0) (s.regs (blockCount x)) with ⟨hr, ho⟩ | ⟨hc, hr, he⟩
  · refine .inl ⟨?_, next_inj ((orRaise_of_ok _ _ ho).symm.trans h)⟩
    rw [length_blockRegs] at hr
    unfold dataAddr at *
    omega
  · refine .inr ⟨?_, next_inj ((orRaise_of_error _ _ he).symm.trans h)⟩
    rw [length_blockRegs] at hr
    unfold dataAddr at *
    omega

theorem execLdVxMem_cases {x : Reg} {s t : State} (h : execLdVxMem x s = .next t) :
    (dataAddr s x.val ≤ 0xFFF ∧ t = s.setRegs 0 (Memory.readBytes s.mem (dataAddr s 0) (blockCount x))) ∨
    (0xFFF < dataAddr s x.val ∧ t = faultState (.memoryOutOfBounds (max s.index.toNat 0x1000)) s) := by
  unfold execLdVxMem at h
  rcases readBlock_cases s (dataAddr s 0) (blockCount x) with ⟨hr, ho⟩ | ⟨hc, hr, he⟩
  · refine .inl ⟨?_, next_inj ((orRaise_of_ok _ _ ho).symm.trans h)⟩
    unfold dataAddr blockCount at *
    omega
  · refine .inr ⟨?_, next_inj ((orRaise_of_error _ _ he).symm.trans h)⟩
    unfold dataAddr blockCount at *
    omega

end Sys2Proof.Machine
end

