-- ==== Sys2Proof/Laws/PerInstr.lean ====
section
/-! SUPPORT. The family `EncodesRow`: the word the encoder builds for an instruction matches the instruction's own row of the
opcode map (spec/30_encoding.md R97, R110), one lemma for each constructor of `Instr`, and the masks as arithmetic. -/

namespace Sys2Proof.Laws

/-! ### The three kinds of mask, as arithmetic -/

theorem toNat_and_op (w : Word) : (w &&& (0xF000 : Word)).toNat = w.toNat / 4096 * 4096 := by
  have h : w &&& (0xF000 : Word) = (w >>> 12) <<< 12 := by
    apply BitVec.eq_of_getLsbD_eq
    intro i hi
    interval_cases i <;> simp
  have := w.isLt
  rw [h, BitVec.toNat_shiftLeft, BitVec.toNat_ushiftRight, Nat.shiftLeft_eq, Nat.shiftRight_eq_div_pow]
  omega

theorem and_split (w lo : Word) (h : (0xF000 : Word) &&& lo = 0) :
    w &&& ((0xF000 : Word) ||| lo) = (w &&& (0xF000 : Word)) + (w &&& lo) := by
  have hd : w &&& (0xF000 : Word) &&& (w &&& lo) = 0 := by
    rw [show w &&& (0xF000 : Word) &&& (w &&& lo) = w &&& ((0xF000 : Word) &&& lo) by ac_nf, h]; simp
  rw [BitVec.add_eq_or_of_and_eq_zero _ _ hd, BitVec.and_or_distrib_left]

theorem toNat_and_op_n (w : Word) : (w &&& (0xF00F : Word)).toNat = w.toNat / 4096 * 4096 + w.toNat % 16 := by
  have := w.isLt
  have hn : (w &&& (0x000F : Word)).toNat = w.toNat % 16 := by
    rw [BitVec.toNat_and]; exact Nat.and_two_pow_sub_one_eq_mod _ 4
  rw [show (0xF00F : Word) = 0xF000 ||| 0x000F from rfl, and_split _ _ rfl, BitVec.toNat_add, toNat_and_op, hn]
  omega

theorem toNat_and_op_nn (w : Word) : (w &&& (0xF0FF : Word)).toNat = w.toNat / 4096 * 4096 + w.toNat % 256 := by
  have := w.isLt
  have hn : (w &&& (0x00FF : Word)).toNat = w.toNat % 256 := by
    rw [BitVec.toNat_and]; exact Nat.and_two_pow_sub_one_eq_mod _ 8
  rw [show (0xF0FF : Word) = 0xF000 ||| 0x00FF from rfl, and_split _ _ rfl, BitVec.toNat_add, toNat_and_op, hn]
  omega

/-! ### Rows hit by built words -/

theorem hit_of_toNat {r : OpcodeRow} {w : Word} (h : (w &&& r.mask).toNat = r.pattern.toNat) : r.hit w = true := by
  simpa [OpcodeRow.hit] using BitVec.eq_of_toNat_eq h

theorem hit_nnn (op : Nibble) (nnn : Imm12) (p : Word) (hp : p.toNat = op.val * 4096) :
    (OpcodeRow.mk p 0xF000).hit (wordOfNNN op nnn) = true := by
  have := nnn.isLt
  apply hit_of_toNat
  rw [toNat_and_op, wordOfNNN_toNat, hp]
  omega

theorem hit_xnn (op x : Nibble) (nn : Byte) (p : Word) (hp : p.toNat = op.val * 4096) :
    (OpcodeRow.mk p 0xF000).hit (wordOfXNN op x nn) = true := by
  have := nn.isLt
  apply hit_of_toNat
  rw [toNat_and_op, wordOfXNN_toNat, hp]
  omega

theorem hit_x (op x : Nibble) (nn : Byte) (p : Word) (hp : p.toNat = op.val * 4096 + nn.toNat) :
    (OpcodeRow.mk p 0xF0FF).hit (wordOfXNN op x nn) = true := by
  have := nn.isLt
  apply hit_of_toNat
  rw [toNat_and_op_nn, wordOfXNN_toNat, hp]
  omega

theorem hit_xy (op x y n : Nibble) (p : Word) (hp : p.toNat = op.val * 4096 + n.val) :
    (OpcodeRow.mk p 0xF00F).hit (wordOfNibbles op x y n) = true := by
  apply hit_of_toNat
  rw [toNat_and_op_n, wordOfNibbles_toNat, hp]
  omega

theorem hit_xyn (op x y n : Nibble) (p : Word) (hp : p.toNat = op.val * 4096) :
    (OpcodeRow.mk p 0xF000).hit (wordOfNibbles op x y n) = true := by
  apply hit_of_toNat
  rw [toNat_and_op, wordOfNibbles_toNat, hp]
  omega

/-! ### The family -/

/-- The word of the instruction matches the instruction's own row of the opcode map (R97, R110). -/
def EncodesRow.Statement (i : Instr) : Prop :=
  ∃ row, opcodeRows[Instr.rowIndex i]? = some row ∧ row.hit (encode i) = true

theorem EncodesRow.cls : EncodesRow.Statement .cls := ⟨_, rfl, rfl⟩
theorem EncodesRow.ret : EncodesRow.Statement .ret := ⟨_, rfl, rfl⟩
theorem EncodesRow.jp (nnn : Imm12) : EncodesRow.Statement (.jp nnn) := ⟨_, rfl, hit_nnn _ _ _ rfl⟩
theorem EncodesRow.call (nnn : Imm12) : EncodesRow.Statement (.call nnn) := ⟨_, rfl, hit_nnn _ _ _ rfl⟩
theorem EncodesRow.seVxNn (x : Reg) (nn : Byte) : EncodesRow.Statement (.seVxNn x nn) := ⟨_, rfl, hit_xnn _ _ _ _ rfl⟩
theorem EncodesRow.sneVxNn (x : Reg) (nn : Byte) : EncodesRow.Statement (.sneVxNn x nn) := ⟨_, rfl, hit_xnn _ _ _ _ rfl⟩
theorem EncodesRow.seVxVy (x y : Reg) : EncodesRow.Statement (.seVxVy x y) := ⟨_, rfl, hit_xy _ _ _ _ _ rfl⟩
theorem EncodesRow.ldVxNn (x : Reg) (nn : Byte) : EncodesRow.Statement (.ldVxNn x nn) := ⟨_, rfl, hit_xnn _ _ _ _ rfl⟩
theorem EncodesRow.addVxNn (x : Reg) (nn : Byte) : EncodesRow.Statement (.addVxNn x nn) := ⟨_, rfl, hit_xnn _ _ _ _ rfl⟩
theorem EncodesRow.ldVxVy (x y : Reg) : EncodesRow.Statement (.ldVxVy x y) := ⟨_, rfl, hit_xy _ _ _ _ _ rfl⟩
theorem EncodesRow.orVxVy (x y : Reg) : EncodesRow.Statement (.orVxVy x y) := ⟨_, rfl, hit_xy _ _ _ _ _ rfl⟩
theorem EncodesRow.andVxVy (x y : Reg) : EncodesRow.Statement (.andVxVy x y) := ⟨_, rfl, hit_xy _ _ _ _ _ rfl⟩
theorem EncodesRow.xorVxVy (x y : Reg) : EncodesRow.Statement (.xorVxVy x y) := ⟨_, rfl, hit_xy _ _ _ _ _ rfl⟩
theorem EncodesRow.addVxVy (x y : Reg) : EncodesRow.Statement (.addVxVy x y) := ⟨_, rfl, hit_xy _ _ _ _ _ rfl⟩
theorem EncodesRow.subVxVy (x y : Reg) : EncodesRow.Statement (.subVxVy x y) := ⟨_, rfl, hit_xy _ _ _ _ _ rfl⟩
theorem EncodesRow.shrVx (x y : Reg) : EncodesRow.Statement (.shrVx x y) := ⟨_, rfl, hit_xy _ _ _ _ _ rfl⟩
theorem EncodesRow.subnVxVy (x y : Reg) : EncodesRow.Statement (.subnVxVy x y) := ⟨_, rfl, hit_xy _ _ _ _ _ rfl⟩
theorem EncodesRow.shlVx (x y : Reg) : EncodesRow.Statement (.shlVx x y) := ⟨_, rfl, hit_xy _ _ _ _ _ rfl⟩
theorem EncodesRow.sneVxVy (x y : Reg) : EncodesRow.Statement (.sneVxVy x y) := ⟨_, rfl, hit_xy _ _ _ _ _ rfl⟩
theorem EncodesRow.ldINnn (nnn : Imm12) : EncodesRow.Statement (.ldINnn nnn) := ⟨_, rfl, hit_nnn _ _ _ rfl⟩
theorem EncodesRow.jpV0Nnn (nnn : Imm12) : EncodesRow.Statement (.jpV0Nnn nnn) := ⟨_, rfl, hit_nnn _ _ _ rfl⟩
theorem EncodesRow.rndVxNn (x : Reg) (nn : Byte) : EncodesRow.Statement (.rndVxNn x nn) := ⟨_, rfl, hit_xnn _ _ _ _ rfl⟩
theorem EncodesRow.drwVxVyN (x y : Reg) (n : Nibble) : EncodesRow.Statement (.drwVxVyN x y n) := ⟨_, rfl, hit_xyn _ _ _ _ _ rfl⟩
theorem EncodesRow.skpVx (x : Reg) : EncodesRow.Statement (.skpVx x) := ⟨_, rfl, hit_x _ _ _ _ rfl⟩
theorem EncodesRow.sknpVx (x : Reg) : EncodesRow.Statement (.sknpVx x) := ⟨_, rfl, hit_x _ _ _ _ rfl⟩
theorem EncodesRow.ldVxDT (x : Reg) : EncodesRow.Statement (.ldVxDT x) := ⟨_, rfl, hit_x _ _ _ _ rfl⟩
theorem EncodesRow.ldVxK (x : Reg) : EncodesRow.Statement (.ldVxK x) := ⟨_, rfl, hit_x _ _ _ _ rfl⟩
theorem EncodesRow.ldDTVx (x : Reg) : EncodesRow.Statement (.ldDTVx x) := ⟨_, rfl, hit_x _ _ _ _ rfl⟩
theorem EncodesRow.ldSTVx (x : Reg) : EncodesRow.Statement (.ldSTVx x) := ⟨_, rfl, hit_x _ _ _ _ rfl⟩
theorem EncodesRow.addIVx (x : Reg) : EncodesRow.Statement (.addIVx x) := ⟨_, rfl, hit_x _ _ _ _ rfl⟩
theorem EncodesRow.ldFVx (x : Reg) : EncodesRow.Statement (.ldFVx x) := ⟨_, rfl, hit_x _ _ _ _ rfl⟩
theorem EncodesRow.ldBVx (x : Reg) : EncodesRow.Statement (.ldBVx x) := ⟨_, rfl, hit_x _ _ _ _ rfl⟩
theorem EncodesRow.ldMemVx (x : Reg) : EncodesRow.Statement (.ldMemVx x) := ⟨_, rfl, hit_x _ _ _ _ rfl⟩
theorem EncodesRow.ldVxMem (x : Reg) : EncodesRow.Statement (.ldVxMem x) := ⟨_, rfl, hit_x _ _ _ _ rfl⟩

end Sys2Proof.Laws
end

