-- ==== Sys2Proof/Tests/Slice0.lean ====
section
/-! SUPPORT. The model's own tests: ill-formed input refused, one word for each instruction written out from the patterns of
spec/30_encoding.md R97, single steps with the results of spec/95_test_vectors.md (each test names its vector), and for every
obligation that has hypotheses a state and operands that meet them. -/

namespace Sys2Proof.Tests

open Sys2Proof.Machine

/-! ### Helpers -/

/-- The reset state with an instruction word where the next step fetches it. -/
def at200 (w : Nat) : State := State.reset.withFetchWord 16 w

/-- The same state with a value in a register. -/
def withV (x : Reg) (b : Byte) (s : State) : State := s.setReg x b

/-- The same state with bytes in memory. -/
def withMem (a : Nat) (bytes : List Byte) (s : State) : State := { s with mem := Memory.writeBytes s.mem a bytes }

/-- The same state with the transaction as its next one. -/
def issuing (t : Transaction) (s : State) : State := { s with schedule := [t] }

/-- What is seen of a next state. -/
def seen {α : Type} (r : Result) (see : State → α) : Option α :=
  match r with
  | .next t => some (see t)
  | .fault _ => none
  | .refused _ => none

/-- What is seen of the state one step later. -/
def after {α : Type} (s : State) (see : State → α) : Option α := seen (step s) see

/-- The cells that are set in the given rows. -/
def setCells (rows : List Nat) (s : State) : List Nat :=
  rows.flatMap (fun r => ((List.range 64).map (fun c => pixelIndex c r)).filter (fun k => Pixels.cell s.pix k))

/-! ### Ill-formed input -/

/-- Vectors EN4 to EN8: words of groups 0, 5, 8, 9, E, F that match no row. -/
theorem test_illformed_words : ([0x0000, 0x00E1, 0x0120, 0x012E, 0x5121, 0x8AB8, 0x8ABF, 0x9121, 0xE09F, 0xE00E, 0xE001,
    0xF000, 0xF00B, 0xFFFF] : List Word).all (fun w => !Word.wellFormed w && decodeWord w == .error (.unknownOpcode w)) = true := by
  decide

theorem test_wellformed_word : Word.wellFormed 0x8AB4 = true := by decide

theorem test_illformed_program : Program.wellFormed (List.replicate 3585 0) = false := by
  rw [Program.wellFormed, List.length_replicate]; decide

theorem test_wellformed_program : Program.wellFormed (List.replicate 3584 0) = true := by
  rw [Program.wellFormed, List.length_replicate]; decide

theorem test_illformed_config : Config.wellFormed ⟨0⟩ = false := by decide

theorem test_too_few_bytes : decodeBytes [0x12] = .error .tooFewBytes := by decide

theorem test_table_word_unknown : decodeTableWord 16 0x5121 = none := by decide

/-! ### Decoding: words written out from the patterns of R97 -/

/-- exact word 00E0. -/
theorem test_decode_cls : decodeWord 0x00E0 = .ok .cls := by decide

/-- exact word 00EE. -/
theorem test_decode_ret : decodeWord 0x00EE = .ok .ret := by decide

/-- 1nnn: 0001 1010 1011 1100. -/
theorem test_decode_jp : decodeWord 0x1ABC = .ok (.jp 0xABC) := by decide

/-- 2nnn: 0010 1010 1011 1100. -/
theorem test_decode_call : decodeWord 0x2ABC = .ok (.call 0xABC) := by decide

/-- 3xnn: 0011 0001 0100 0010. -/
theorem test_decode_seVxNn : decodeWord 0x3142 = .ok (.seVxNn 1 0x42) := by decide

/-- 4xnn: 0100 0001 0100 0011. -/
theorem test_decode_sneVxNn : decodeWord 0x4143 = .ok (.sneVxNn 1 0x43) := by decide

/-- 5xy0: 0101 0001 0010 0000. -/
theorem test_decode_seVxVy : decodeWord 0x5120 = .ok (.seVxVy 1 2) := by decide

/-- 6xnn: 0110 1010 1111 1111. -/
theorem test_decode_ldVxNn : decodeWord 0x6AFF = .ok (.ldVxNn 0xA 0xFF) := by decide

/-- 7xnn: 0111 0001 0000 0010. -/
theorem test_decode_addVxNn : decodeWord 0x7102 = .ok (.addVxNn 1 0x02) := by decide

/-- 8xy0: 1000 0001 0010 0000. -/
theorem test_decode_ldVxVy : decodeWord 0x8120 = .ok (.ldVxVy 1 2) := by decide

/-- 8xy1. -/
theorem test_decode_orVxVy : decodeWord 0x8121 = .ok (.orVxVy 1 2) := by decide

/-- 8xy2. -/
theorem test_decode_andVxVy : decodeWord 0x8122 = .ok (.andVxVy 1 2) := by decide

/-- 8xy3. -/
theorem test_decode_xorVxVy : decodeWord 0x8123 = .ok (.xorVxVy 1 2) := by decide

/-- 8xy4, vector EN3. -/
theorem test_decode_addVxVy : decodeWord 0x8AB4 = .ok (.addVxVy 0xA 0xB) := by decide

/-- 8xy5. -/
theorem test_decode_subVxVy : decodeWord 0x8125 = .ok (.subVxVy 1 2) := by decide

/-- 8xy6, vector EN9. -/
theorem test_decode_shrVx : decodeWord 0x81F6 = .ok (.shrVx 1 0xF) := by decide

/-- 8xy7. -/
theorem test_decode_subnVxVy : decodeWord 0x8127 = .ok (.subnVxVy 1 2) := by decide

/-- 8xyE. -/
theorem test_decode_shlVx : decodeWord 0x812E = .ok (.shlVx 1 2) := by decide

/-- 9xy0: 1001 0001 0010 0000. -/
theorem test_decode_sneVxVy : decodeWord 0x9120 = .ok (.sneVxVy 1 2) := by decide

/-- Annn: 1010 0011 0000 0000. -/
theorem test_decode_ldINnn : decodeWord 0xA300 = .ok (.ldINnn 0x300) := by decide

/-- Bnnn: 1011 0011 1111 1110. -/
theorem test_decode_jpV0Nnn : decodeWord 0xB3FE = .ok (.jpV0Nnn 0x3FE) := by decide

/-- Cxnn: 1100 0001 0000 1111. -/
theorem test_decode_rndVxNn : decodeWord 0xC10F = .ok (.rndVxNn 1 0x0F) := by decide

/-- Dxyn, vector EN1. -/
theorem test_decode_drwVxVyN : decodeWord 0xD12F = .ok (.drwVxVyN 1 2 15) := by decide

/-- Ex9E: 1110 0001 1001 1110. -/
theorem test_decode_skpVx : decodeWord 0xE19E = .ok (.skpVx 1) := by decide

/-- ExA1: 1110 0001 1010 0001. -/
theorem test_decode_sknpVx : decodeWord 0xE1A1 = .ok (.sknpVx 1) := by decide

/-- Fx07: 1111 0100 0000 0111. -/
theorem test_decode_ldVxDT : decodeWord 0xF407 = .ok (.ldVxDT 4) := by decide

/-- Fx0A. -/
theorem test_decode_ldVxK : decodeWord 0xF30A = .ok (.ldVxK 3) := by decide

/-- Fx15. -/
theorem test_decode_ldDTVx : decodeWord 0xF315 = .ok (.ldDTVx 3) := by decide

/-- Fx18. -/
theorem test_decode_ldSTVx : decodeWord 0xF318 = .ok (.ldSTVx 3) := by decide

/-- Fx1E. -/
theorem test_decode_addIVx : decodeWord 0xF21E = .ok (.addIVx 2) := by decide

/-- Fx29. -/
theorem test_decode_ldFVx : decodeWord 0xF029 = .ok (.ldFVx 0) := by decide

/-- Fx33. -/
theorem test_decode_ldBVx : decodeWord 0xF133 = .ok (.ldBVx 1) := by decide

/-- Fx55. -/
theorem test_decode_ldMemVx : decodeWord 0xFF55 = .ok (.ldMemVx 0xF) := by decide

/-- Fx65, vector EN2. -/
theorem test_decode_ldVxMem : decodeWord 0xF065 = .ok (.ldVxMem 0) := by decide

/-! ### Single steps -/

/-- CT1. -/
theorem test_jp :
    after (at200 0x1ABC) (fun t => (t.pc, t.lastOpcode)) = some (0xABC, 0x1ABC) := by
  decide

/-- CT5. -/
theorem test_call :
    after (at200 0x2ABC) (fun t => (t.stack, t.pc)) = some ([0x200], 0xABC) := by
  decide

/-- CT8: sixteen entries, the fault of R262. -/
theorem test_call_full :
    after ({ at200 0x2300 with stack := List.replicate 16 0x300 }) (fun t => (t.status, t.pc, t.stack.length)) = some (.faulted .stackOverflow, 0x202, 16) := by
  decide

/-- CT6. -/
theorem test_ret :
    after ({ State.reset.withFetchWord 16 0x00EE with stack := [0x400] }) (fun t => (t.stack, t.pc)) = some ([], 0x402) := by
  decide

/-- CT7. -/
theorem test_ret_empty :
    after (at200 0x00EE) (fun t => (t.status, t.pc, t.lastOpcode)) = some (.faulted .stackUnderflow, 0x202, 0x00EE) := by
  decide

/-- CT11. -/
theorem test_jpV0_no_wrap :
    after (withV 0 0xFF (at200 0xBFFF)) (fun t => t.pc) = some 0x10FE := by
  decide

/-- CT12: always V[0]. -/
theorem test_jpV0_register :
    after (withV 3 0x80 (withV 0 0x04 (at200 0xB300))) (fun t => t.pc) = some 0x304 := by
  decide

/-- CT13. -/
theorem test_seVxNn_skips :
    after (withV 1 0x42 (at200 0x3142)) (fun t => t.pc) = some 0x204 := by
  decide

/-- CT14. -/
theorem test_seVxNn_falls :
    after (withV 1 0x42 (at200 0x3143)) (fun t => t.pc) = some 0x202 := by
  decide

/-- CT15. -/
theorem test_sneVxNn_falls :
    after (withV 1 0x42 (at200 0x4142)) (fun t => t.pc) = some 0x202 := by
  decide

/-- CT16. -/
theorem test_sneVxNn_skips :
    after (withV 1 0x42 (at200 0x4143)) (fun t => t.pc) = some 0x204 := by
  decide

/-- CT17. -/
theorem test_seVxVy_skips :
    after (withV 1 7 (withV 2 7 (at200 0x5120))) (fun t => t.pc) = some 0x204 := by
  decide

/-- CT18. -/
theorem test_seVxVy_falls :
    after (withV 1 7 (withV 2 8 (at200 0x5120))) (fun t => t.pc) = some 0x202 := by
  decide

/-- CT20. -/
theorem test_sneVxVy_skips :
    after (withV 1 7 (withV 2 8 (at200 0x9120))) (fun t => t.pc) = some 0x204 := by
  decide

/-- CT21. -/
theorem test_sneVxVy_falls :
    after (withV 1 7 (withV 2 7 (at200 0x9120))) (fun t => t.pc) = some 0x202 := by
  decide

/-- AL1. -/
theorem test_ldVxNn :
    after (at200 0x6AFF) (fun t => (t.reg 0xA, t.pc)) = some (0xFF, 0x202) := by
  decide

/-- AL3: no carry flag. -/
theorem test_addVxNn_wraps :
    after (withV 1 0xFF (at200 0x7102)) (fun t => (t.reg 1, t.reg 0xF)) = some (0x01, 0) := by
  decide

/-- AL5. -/
theorem test_addVxNn_flag :
    after (withV 0xF 0xFF (at200 0x7F01)) (fun t => t.reg 0xF) = some 0x00 := by
  decide

/-- AL6. -/
theorem test_ldVxVy :
    after (withV 2 0x3C (at200 0x8120)) (fun t => (t.reg 1, t.reg 2)) = some (0x3C, 0x3C) := by
  decide

/-- AL7: V[F] keeps its value. -/
theorem test_orVxVy :
    after (withV 1 0xF0 (withV 2 0x0F (withV 0xF 1 (at200 0x8121)))) (fun t => (t.reg 1, t.reg 0xF)) = some (0xFF, 1) := by
  decide

/-- AL8: V[F] keeps its value. -/
theorem test_andVxVy :
    after (withV 1 0xF0 (withV 2 0x3C (withV 0xF 1 (at200 0x8122)))) (fun t => (t.reg 1, t.reg 0xF)) = some (0x30, 1) := by
  decide

/-- AL9: V[F] keeps its value. -/
theorem test_xorVxVy :
    after (withV 1 0xF0 (withV 2 0x3C (withV 0xF 1 (at200 0x8123)))) (fun t => (t.reg 1, t.reg 0xF)) = some (0xCC, 1) := by
  decide

/-- S4v. -/
theorem test_addVxVy_carry :
    after (withV 1 0xFF (withV 2 0x02 (at200 0x8124))) (fun t => (t.reg 1, t.reg 0xF)) = some (0x01, 1) := by
  decide

/-- AL16: the carry is what stays. -/
theorem test_addVxVy_vf :
    after (withV 0xF 0xFF (withV 1 0x01 (at200 0x8F14))) (fun t => t.reg 0xF) = some 0x01 := by
  decide

/-- S5w. -/
theorem test_subVxVy :
    after (withV 1 0x05 (withV 2 0x10 (at200 0x8125))) (fun t => (t.reg 1, t.reg 0xF)) = some (0xF5, 0) := by
  decide

/-- AL22: the difference is what stays. -/
theorem test_subVxVy_vf :
    after (withV 0xF 0x05 (withV 1 0x03 (at200 0x8F15))) (fun t => t.reg 0xF) = some 0x02 := by
  decide

/-- AL24. -/
theorem test_subnVxVy :
    after (withV 1 0x05 (withV 2 0x10 (at200 0x8127))) (fun t => (t.reg 1, t.reg 0xF)) = some (0x0B, 1) := by
  decide

/-- AL27. -/
theorem test_subnVxVy_vf :
    after (withV 0xF 0x03 (withV 1 0x05 (at200 0x8F17))) (fun t => t.reg 0xF) = some 0x02 := by
  decide

/-- AL31: V[y] plays no part. -/
theorem test_shrVx :
    after (withV 1 0x04 (withV 2 0xFF (at200 0x8126))) (fun t => (t.reg 1, t.reg 0xF, t.reg 2)) = some (0x02, 0, 0xFF) := by
  decide

/-- AL33. -/
theorem test_shrVx_vf :
    after (withV 0xF 0x02 (at200 0x8F06)) (fun t => t.reg 0xF) = some 0x01 := by
  decide

/-- AL34. -/
theorem test_shlVx :
    after (withV 1 0x81 (at200 0x810E)) (fun t => (t.reg 1, t.reg 0xF)) = some (0x02, 1) := by
  decide

/-- AL38. -/
theorem test_shlVx_vf :
    after (withV 0xF 0x80 (at200 0x8F0E)) (fun t => t.reg 0xF) = some 0x00 := by
  decide

/-- AL40. -/
theorem test_rndVxNn :
    after ({ at200 0xC10F with byteSource := [0xA7, 0x11] }) (fun t => (t.reg 1, t.byteSource)) = some (0x07, [0x11]) := by
  decide

/-- MX2. -/
theorem test_ldINnn :
    after (at200 0xAFFF) (fun t => t.index) = some 0xFFF := by
  decide

/-- MX4: no flag, no fault. -/
theorem test_addIVx_past_memory :
    after (withV 2 0x01 { at200 0xF21E with index := 0xFFF }) (fun t => (t.index, t.reg 0xF, t.status)) = some (0x1000, 0, .running) := by
  decide

/-- MX5. -/
theorem test_addIVx_wraps :
    after (withV 2 0x02 { at200 0xF21E with index := 0xFFFF }) (fun t => t.index) = some 0x0001 := by
  decide

/-- MX10: the whole byte is multiplied. -/
theorem test_ldFVx :
    after (withV 0 0xFF (at200 0xF029)) (fun t => (t.index, t.redraw)) = some (0x4FB, true) := by
  decide

/-- S7v. -/
theorem test_ldBVx :
    after (withV 1 157 { at200 0xF133 with index := 0x300 }) (fun t => (Memory.readBytes t.mem 0x300 3, t.index, t.reg 1)) = some ([1, 5, 7], 0x300, 157) := by
  decide

/-- MX18: no byte lands. -/
theorem test_ldBVx_fault :
    after (withV 1 123 { at200 0xF133 with index := 0xFFE }) (fun t => (t.status, t.pc, Memory.readBytes t.mem 0xFFE 2)) = some (.faulted (.memoryOutOfBounds 0x1000), 0x202, [0, 0]) := by
  decide

/-- MX21. -/
theorem test_ldMemVx :
    after (withV 0 0x11 (withV 1 0x22 (withV 2 0x33 { at200 0xF155 with index := 0x400 }))) (fun t => (Memory.readBytes t.mem 0x400 3, t.index)) = some ([0x11, 0x22, 0], 0x400) := by
  decide

/-- MX25. -/
theorem test_ldMemVx_fault :
    after ({ withV 0 9 (at200 0xF855) with index := 0xFF8 }) (fun t => (t.status, Memory.read t.mem 0xFF8)) = some (.faulted (.memoryOutOfBounds 0x1000), 0) := by
  decide

/-- MX26. -/
theorem test_ldVxMem :
    after (withV 3 0x99 (withMem 0x300 [1, 5, 7] { at200 0xF265 with index := 0x300 })) (fun t => ([t.reg 0, t.reg 1, t.reg 2, t.reg 3], t.index)) = some ([1, 5, 7, 0x99], 0x300) := by
  decide

/-- MX29: glyph 0 of R49. -/
theorem test_ldVxMem_font :
    after (at200 0xF465) (fun t => [t.reg 0, t.reg 1, t.reg 2, t.reg 3, t.reg 4]) = some [0xF0, 0x90, 0x90, 0x90, 0xF0] := by
  decide

/-- DR1. -/
theorem test_cls :
    after ({ at200 0x00E0 with pix := Pixels.toggle (Pixels.toggle blankPixels 5) 2047 }) (fun t => (decide (t.pix = blankPixels), t.redraw)) = some (true, true) := by
  decide

/-- DR5. -/
theorem test_drw_wraps :
    after (withV 1 62 (withV 2 31 (withMem 0x300 [0xF0, 0x90] { at200 0xD122 with index := 0x300 }))) (fun t => (setCells [0, 1, 31] t, t.reg 0xF, t.redraw)) = some ([1, 62, 1984, 1985, 2046, 2047], 0, true) := by
  decide

/-- DR10: one bit, not a count. -/
theorem test_drw_collision :
    after (withMem 0x300 [0xC0] { at200 0xD121 with index := 0x300, pix := Pixels.toggle blankPixels 0 }) (fun t => (setCells [0, 1] t, t.reg 0xF)) = some ([1], 1) := by
  decide

/-- KY1. -/
theorem test_skpVx :
    after (withV 1 5 { at200 0xE19E with keys := (Vector.replicate 16 false).set 5 true }) (fun t => t.pc) = some 0x204 := by
  decide

/-- KY5: 0x15 names no key. -/
theorem test_skpVx_no_key :
    after (withV 1 0x15 { at200 0xE19E with keys := Vector.replicate 16 true }) (fun t => t.pc) = some 0x202 := by
  decide

/-- KY4. -/
theorem test_sknpVx :
    after (withV 1 5 (at200 0xE1A1)) (fun t => t.pc) = some 0x204 := by
  decide

/-- KY3. -/
theorem test_sknpVx_down :
    after (withV 1 5 { at200 0xE1A1 with keys := (Vector.replicate 16 false).set 5 true }) (fun t => t.pc) = some 0x202 := by
  decide

/-- TM1. -/
theorem test_ldVxDT :
    after ({ at200 0xF407 with dt := 0x2A }) (fun t => (t.reg 4, t.dt)) = some (0x2A, 0x2A) := by
  decide

/-- KY9. -/
theorem test_ldVxK :
    after (withV 3 0x55 (at200 0xF30A)) (fun t => (t.status, t.pc, t.reg 3)) = some (.waitingForKey 3, 0x202, 0x55) := by
  decide

/-- TM2. -/
theorem test_ldDTVx :
    after (withV 3 0x07 (at200 0xF315)) (fun t => (t.dt, t.st)) = some (0x07, 0) := by
  decide

/-- TM3. -/
theorem test_ldSTVx :
    after (withV 3 0x1E (at200 0xF318)) (fun t => (t.st, t.dt)) = some (0x1E, 0) := by
  decide

/-! ### The cycle and the other transactions -/

/-- EN11. -/
theorem test_big_endian_fetch :
    after (withMem 0x200 [0x12, 0x34] State.reset) (fun t => t.pc) = some 0x234 := by
  decide

/-- EN16: the first step after reset with nothing placed. -/
theorem test_unloaded_machine :
    after (State.reset) (fun t => (t.pc, t.report, t.status)) = some (0x202, some (.unknownOpcode 0x0000), .running) := by
  decide

/-- EN15. -/
theorem test_fetch_fault :
    after ({ State.reset with pc := 0xFFF }) (fun t => (t.status, t.pc, t.lastOpcode)) = some (.faulted (.memoryOutOfBounds 0x1000), 0xFFF, 0) := by
  decide

/-- EN13. -/
theorem test_faulted_gate :
    after ({ at200 0x1ABC with status := .faulted .stackUnderflow }) (fun t => (t.status, t.pc, t.report)) = some (.faulted .stackUnderflow, 0x200, none) := by
  decide

/-- TM7: each timer on its own. -/
theorem test_tick :
    after (issuing .updateTimers { State.reset with st := 1 }) (fun t => (t.dt, t.st)) = some (0, 0) := by
  decide

/-- KY11. -/
theorem test_press_does_not_wake :
    after (issuing (.onKeyPressed 7) { State.reset with status := .waitingForKey 3 }) (fun t => (t.status, t.keys.get 7, t.reg 3)) = some (.waitingForKey 3, true, 0) := by
  decide

/-- KY13. -/
theorem test_release_wakes :
    after (issuing (.onKeyReleased 0xC) { State.reset with status := .waitingForKey 3 }) (fun t => (t.status, t.keys.get 0xC, t.reg 3)) = some (.running, false, 0x0C) := by
  decide

/-- XR2. -/
theorem test_load :
    after (issuing (.load [0x12, 0x00]) State.reset) (fun t => (Memory.readBytes t.mem 0x200 2, t.pc, t.report)) = some ([0x12, 0x00], 0x200, none) := by
  decide

/-- KY17: the pending wait is dropped. -/
theorem test_reset :
    after (issuing .reset (withV 3 0x55 { State.reset with status := .waitingForKey 3, pc := 0x300 })) (fun t => (t.status, t.reg 3, t.pc)) = some (.running, 0, 0x200) := by
  decide

/-- DR18. -/
theorem test_clear_redraw :
    after (issuing .clearRedraw { State.reset with redraw := true }) (fun t => t.redraw) = some false := by
  decide

/-- R44: the snapshot shows the state as it stands. -/
theorem test_snapshot : (withV 2 9 State.reset).snapshot.v.get 2 = 9 ∧ State.reset.snapshot.pc = 0x200 := by decide

/-- R36, D15: cell 64 is column 0 of row 1. -/
theorem test_framebuffer_layout :
    Pixels.cell (Pixels.toggle blankPixels (pixelIndex 0 1)) 64 = true ∧ Pixels.cell blankPixels 64 = false := by decide

/-! ### Witnesses: the hypotheses of the obligations are met -/

theorem test_witness_EncodeOfDecodeIsIdentity : decodeWord 0x8124 = .ok (.addVxVy 1 2) := by decide

/-- The first and the last row. -/
theorem test_witness_DecodeFollowsOpcodeTable :
    opcodeRows[0]? = some ⟨0x00E0, 0xFFFF⟩ ∧ opcodeRows[33]? = some ⟨0xF065, 0xF0FF⟩ := by decide

/-- PC = 0xFFE is the last address a fetch succeeds at. -/
theorem test_witness_StepRunsDecodedInstruction :
    let s : State := withMem 0xFFE [0x60, 0x01] { State.reset with pc := 0xFFE }
    nextTransaction s = .cycle ∧ s.status = .running ∧ s.pc.toNat + 1 ≤ 0xFFF ∧
      decodeWord (wordOfBytes (Memory.read s.mem s.pc.toNat) (Memory.read s.mem (s.pc.toNat + 1))) = .ok (.ldVxNn 0 1) := by
  decide

theorem test_witness_UnknownWordIsReportedNoOp :
    let s : State := withMem 0xFFE [0x51, 0x21] { State.reset with pc := 0xFFE }
    CycleExecutes s ∧ Word.wellFormed (wordAtPc s) = false := by
  unfold CycleExecutes; decide

theorem test_witness_GatedCycleHasNoEffect :
    (∃ s : State, nextTransaction s = .cycle ∧ s.status = .waitingForKey 3 ∧ s.status ≠ .running) ∧
    (∃ s : State, nextTransaction s = .cycle ∧ s.status = .faulted .stackUnderflow ∧ s.status ≠ .running) :=
  ⟨⟨{ State.reset with status := .waitingForKey 3 }, by decide⟩,
    ⟨{ State.reset with status := .faulted .stackUnderflow }, by decide⟩⟩

/-- The lowest PC whose fetch fails, and the highest PC a run reaches. -/
theorem test_witness_FetchOutOfRangeFaults : ([0xFFF, 0x10FE] : List Word).all (fun pc =>
    let s : State := { State.reset with pc := pc }
    nextTransaction s == .cycle && s.status == .running && decide (0xFFF < s.pc.toNat + 1)) = true := by
  decide

/-- Both clauses: a byte is supplied, and none is. -/
theorem test_witness_RandomByteIsMasked :
    ({ State.reset with byteSource := [0xA7] } : State).byteSource = 0xA7 :: [] ∧ State.reset.byteSource = [] := by
  decide

/-- One entry short of full, and full. -/
theorem test_witness_CallPushesItsOwnAddress :
    let s : State := { State.reset with stack := List.replicate 15 0x300 }
    s.stack.length < s.config.stackDepth := by
  decide

theorem test_witness_CallOnFullStackFaults :
    let s : State := { State.reset with stack := List.replicate 16 0x300 }
    s.config.stackDepth ≤ s.stack.length := by
  decide

theorem test_witness_ReturnGoesPastTheCall :
    ({ State.reset with stack := [0xFFE, 0x200] } : State).stack = 0xFFE :: [0x200] := by decide

theorem test_witness_ReturnOnEmptyStackFaults : State.reset.stack = [] := by decide

/-- The outer hypotheses, and the called code that does nothing meets the inner one. -/
theorem test_witness_CallThenReturnComesBack :
    let s : State := { State.reset with pc := 0x206, stack := List.replicate 15 0x300 }
    s.pc = 0x204 + 2 ∧ s.stack.length < s.config.stackDepth ∧
      ∃ t u : State, exec (.call 0x20A) s = .next t ∧ u.stack = t.stack :=
  ⟨by decide, by decide, _, _, rfl, rfl⟩

/-- I = 0xFFD is the highest at which Fx33 succeeds (R195). -/
theorem test_witness_BcdStoresThreeDigits : dataAddr { State.reset with index := 0xFFD } 2 ≤ 0xFFF := by decide

theorem test_witness_BlockStoreCopiesRegisters :
    dataAddr { State.reset with index := 0xFF8 } (7 : Reg).val ≤ 0xFFF ∧ (7 : Reg) ≤ 7 ∧ (0 : Reg) ≤ 7 := by decide

theorem test_witness_BlockLoadCopiesMemory :
    dataAddr { State.reset with index := 0xFF0 } (15 : Reg).val ≤ 0xFFF ∧ (15 : Reg) ≤ 15 := by decide

/-- Each of the four forms, one byte too far; no value falls under two clauses, since the form decides. -/
theorem test_witness_OutOfRangeAccessCommitsOnlyTheFault :
    (0 < (2 : Nibble).val ∧ 0xFFF < dataAddr { State.reset with index := 0xFFF } ((2 : Nibble).val - 1)) ∧
    0xFFF < dataAddr { State.reset with index := 0xFFE } 2 ∧
    0xFFF < dataAddr { State.reset with index := 0xFF8 } (8 : Reg).val ∧
    0xFFF < dataAddr { State.reset with index := 0xFFFF } (0 : Reg).val := by
  decide

/-- The outer hypothesis, and the state right after the store meets the inner ones. -/
theorem test_witness_StoreThenLoadRestores :
    let s : State := { State.reset with index := 0xFF8 }
    dataAddr s (7 : Reg).val ≤ 0xFFF ∧
      ∃ t : State, exec (.ldMemVx 7) s = .next t ∧ t.index = s.index ∧
        ∀ k, k ≤ (7 : Reg).val → Memory.read t.mem (dataAddr s k) = Memory.read t.mem (dataAddr s k) :=
  ⟨by decide, _, rfl, rfl, fun _ _ => rfl⟩

/-- Both ways a sprite is in range: no row, whatever I holds, and a last row at 0xFFF; a covered and an uncovered cell. -/
theorem test_witness_DrawXorsTheWrappedSprite :
    let s : State := withMem 0xFFF [0x80] { State.reset with index := 0xFFF }
    SpriteInRange { State.reset with index := 0xFFFF } 0 ∧ SpriteInRange s 1 ∧ spriteCovers s 0 0 1 0 0 ∧
      ¬ spriteCovers s 0 0 1 63 31 := by
  unfold SpriteInRange spriteCovers; decide

/-- Both clauses: a set cell under the sprite, and a clear buffer. -/
theorem test_witness_DrawFlagIsCollision :
    let s : State := withMem 0xFFF [0x80] { State.reset with index := 0xFFF }
    let hit : State := { s with pix := Pixels.toggle blankPixels 0 }
    SpriteInRange s 1 ∧ SpriteInRange hit 1 ∧
      (spriteCovers hit 0 0 1 0 0 ∧ Pixels.cell hit.pix (pixelIndex 0 0) = true) ∧
      ∀ col row, col < 64 → row < 32 → spriteCovers s 0 0 1 col row → Pixels.cell s.pix (pixelIndex col row) = false :=
  ⟨by unfold SpriteInRange; decide, by unfold SpriteInRange; decide, by unfold spriteCovers; decide,
    fun _ _ _ _ _ => Pixels.cell_blank _⟩

/-- The state right after the first draw meets the inner hypotheses. -/
theorem test_witness_DrawTwiceRestoresTheBuffer :
    let s : State := withMem 0xFFF [0x80] { State.reset with index := 0xFFF }
    SpriteInRange s 1 ∧ ∃ t : State, exec (.drwVxVyN 0 1 1) s = .next t ∧ t.index = s.index ∧ t.reg 0 = s.reg 0 ∧
      t.reg 1 = s.reg 1 ∧ t.mem = s.mem :=
  ⟨by unfold SpriteInRange; decide, _, rfl, rfl, rfl, rfl, rfl⟩

theorem test_witness_TimerTickCountsDown : nextTransaction (issuing .updateTimers State.reset) = .updateTimers := by decide

theorem test_witness_KeyPressSetsItsKey : nextTransaction (issuing (.onKeyPressed 0xF) State.reset) = .onKeyPressed 0xF := by
  decide

/-- Waiting, and not waiting. -/
theorem test_witness_KeyReleaseEndsTheWait :
    let s : State := issuing (.onKeyReleased 0xF) State.reset
    nextTransaction s = .onKeyReleased 0xF ∧ ({ s with status := .waitingForKey 0xF } : State).status = .waitingForKey 0xF ∧
      ∀ r, s.status ≠ .waitingForKey r := by
  decide

theorem test_witness_ClearRedrawTouchesOnlyTheFlag :
    let s : State := issuing .clearRedraw { State.reset with redraw := true }
    nextTransaction s = .clearRedraw ∧ s.redraw = true ∧ after s State.redraw = some false := by
  decide

/-- The longest program accepted, and the shortest refused. -/
theorem test_witness_LoadCopiesTheProgram :
    (nextTransaction (issuing (.load (List.replicate 3584 0x12)) State.reset) = .load (List.replicate 3584 0x12) ∧
      (List.replicate 3584 (0x12 : Byte)).length ≤ 3584) ∧
    (nextTransaction (issuing (.load (List.replicate 3585 0x12)) State.reset) = .load (List.replicate 3585 0x12) ∧
      3584 < (List.replicate 3585 (0x12 : Byte)).length) :=
  ⟨⟨rfl, by rw [List.length_replicate]⟩, ⟨rfl, by rw [List.length_replicate]; decide⟩⟩

theorem test_witness_ResetForgetsEverything : nextTransaction (issuing .reset State.reset) = .reset := by decide

/-- While waiting: a tick, a press and a cycle are all such steps. -/
theorem test_witness_WaitIsLiftedOnlyByReleaseOrReset :
    let s : State := issuing (.onKeyPressed 1) { State.reset with status := .waitingForKey 2 }
    s.status = .waitingForKey 2 ∧ (∃ t, step s = .next t) ∧ (∀ c, nextTransaction s ≠ .onKeyReleased c) ∧
      nextTransaction s ≠ .reset :=
  ⟨rfl, ⟨_, rfl⟩, by decide, by decide⟩

theorem test_witness_FaultIsLeftOnlyByReset :
    let s : State := { State.reset with status := .faulted .stackOverflow }
    s.status = .faulted .stackOverflow ∧ (∃ t, step s = .next t) ∧ nextTransaction s ≠ .reset :=
  ⟨rfl, ⟨_, rfl⟩, by decide⟩

/-- A cycle that changes DT, and one that changes ST. -/
theorem test_witness_TimersChangeOnlyByTickOrLoad :
    let s : State := withV 3 7 (at200 0xF315)
    let s' : State := withV 3 7 (at200 0xF318)
    (nextTransaction s ≠ .updateTimers ∧ nextTransaction s ≠ .reset ∧ after s (fun t => decide (t.dt ≠ s.dt)) = some true) ∧
    (nextTransaction s' ≠ .updateTimers ∧ nextTransaction s' ≠ .reset ∧
      after s' (fun t => decide (t.st ≠ s'.st)) = some true) := by
  decide

/-- A step that changes the pixels by drawing, one by clearing and one by reset. -/
theorem test_witness_PixelsChangeOnlyByClsDrwReset :
    let p : Pixels := Pixels.toggle blankPixels 0
    after (at200 0xD001) (fun t => decide (t.pix ≠ (at200 0xD001).pix)) = some true ∧
    after { at200 0x00E0 with pix := p } (fun t => decide (t.pix ≠ p)) = some true ∧
    after (issuing .reset { State.reset with pix := p }) (fun t => decide (t.pix ≠ p)) = some true := by
  decide

/-- The flag set by a step, and cleared by one. -/
theorem test_witness_RedrawFlagChangesOnlyAsMarked :
    (at200 0xF029).redraw = false ∧ after (at200 0xF029) State.redraw = some true ∧
    after (issuing .reset { State.reset with redraw := true }) State.redraw = some false := by
  decide

/-- A call and a return. -/
theorem test_witness_StackChangesOnlyByCallRetReset :
    after (at200 0x2300) (fun t => decide (t.stack ≠ (at200 0x2300).stack)) = some true ∧
    after { at200 0x00EE with stack := [0x300] } (fun t => decide (t.stack ≠ [0x300])) = some true := by
  decide

/-- A byte changed by Fx33, by Fx55, by a load and by a reset. -/
theorem test_witness_MemoryChangesOnlyByStoresLoadReset :
    let bcd : State := withV 1 255 { at200 0xF133 with index := 0xFFD }
    let blk : State := withV 0 9 { at200 0xF055 with index := 0xFFF }
    let ld : State := issuing (.load [1]) State.reset
    let rs : State := issuing .reset (withMem 0xFFF [1] State.reset)
    after bcd (fun t => decide (Memory.read t.mem 0xFFF ≠ Memory.read bcd.mem 0xFFF)) = some true ∧
    after blk (fun t => decide (Memory.read t.mem 0xFFF ≠ Memory.read blk.mem 0xFFF)) = some true ∧
    after ld (fun t => decide (Memory.read t.mem 0x200 ≠ Memory.read ld.mem 0x200)) = some true ∧
    after rs (fun t => decide (Memory.read t.mem 0xFFF ≠ Memory.read rs.mem 0xFFF)) = some true := by
  decide

/-- Each of the six, raising its error. -/
theorem test_witness_OnlyTheseInstructionsFault :
    let high : State := { State.reset with index := 0xFFF }
    seen (exec .ret State.reset) State.status = some (.faulted .stackUnderflow) ∧
    seen (exec (.call 0x300) { State.reset with stack := List.replicate 16 0x300 }) State.status
      = some (.faulted .stackOverflow) ∧
    ([.drwVxVyN 0 0 2, .ldBVx 0, .ldMemVx 1, .ldVxMem 1] : List Instr).all (fun i =>
      seen (exec i high) State.status == some (.faulted (.memoryOutOfBounds 0x1000))) = true := by
  decide

/-- A state in mid-run meets the invariant: an entry on the stack, a byte stored, the highest PC, a fault recorded. -/
theorem test_witness_StepKeepsInvariant :
    let s : State :=
      { State.reset with
        stack := [0xFFE]
        mem := [(0x300, 7)]
        pc := 0x10FE
        status := .faulted (.memoryOutOfBounds 0x10FE) }
    State.Inv s ∧ ∃ t, step s = .next t :=
  ⟨⟨by decide, by decide, fun a h => by cases List.mem_singleton.mp h; decide, by decide,
    fun a h => by cases h; decide, by decide⟩, _, rfl⟩

/-! ### What the host asks -/

/-- `withFetchWord` makes the very next step run the word, from a waiting state and from a PC out of range too. -/
theorem test_withFetchWord :
    after (({ State.reset with status := .waitingForKey 1, pc := 0xFFFF, schedule := [.reset] } : State).withFetchWord 16 0x1ABC)
      (fun t => (t.pc, t.schedule)) = some (0xABC, [.reset]) := by
  decide

end Sys2Proof.Tests
end

section
/-! PROOFS. The encoding (spec/30_encoding.md R92, R97, R107): the fields are the masks and shifts of the word, and the
decoder answers an instruction of a row of the opcode map exactly on the words of that row.  The bridge between decoder and
table is the encoder: the words of row `k` are the words `encode` builds for the instructions of row `k`, and the decoder
inverts `encode`. -/

namespace Sys2Proof

open Laws

/-! ### The fields as masks and shifts (R92) -/

/-- Masking `n` bits from bit `k` up and shifting them down is a quotient and a remainder. -/
theorem and_mask_shiftRight (a k n : Nat) : (a &&& (2 ^ n - 1) <<< k) >>> k = a / 2 ^ k % 2 ^ n := by
  rw [Nat.shiftRight_and_distrib, Nat.shiftLeft_shiftRight, Nat.and_two_pow_sub_one_eq_mod, Nat.shiftRight_eq_div_pow]

/-- Settles O2: mask and shift are quotient and remainder, which is what `fieldX_val` and its like say of the fields. -/
theorem fieldsAreMaskedAndShifted : Obligations.FieldsAreMaskedAndShifted := by
  intro w
  have hw := w.isLt
  have hx : (w.toNat &&& 0x0F00) >>> 8 = w.toNat / 256 % 16 := and_mask_shiftRight _ 8 4
  have hy : (w.toNat &&& 0x00F0) >>> 4 = w.toNat / 16 % 16 := and_mask_shiftRight _ 4 4
  have hn : w.toNat &&& 0x000F = w.toNat % 16 := Nat.and_two_pow_sub_one_eq_mod _ 4
  have hnn : w.toNat &&& 0x00FF = w.toNat % 256 := Nat.and_two_pow_sub_one_eq_mod _ 8
  have hnnn : w.toNat &&& 0x0FFF = w.toNat % 4096 := Nat.and_two_pow_sub_one_eq_mod _ 12
  have hop : (w.toNat &&& 0xF000) >>> 12 = w.toNat / 4096 % 16 := and_mask_shiftRight _ 12 4
  rw [fieldX_val, fieldY_val, fieldN_val, fieldNN_toNat, fieldNNN_toNat, fieldOp_val, hx, hy, hn, hnn, hnnn, hop]
  omega

/-! ### Words rebuilt when some of their fields are known -/

theorem wordOfNNN_eq {w : Word} {op : Nibble} (hop : (fieldOp w).val = op.val) : wordOfNNN op (fieldNNN w) = w :=
  Fin.ext hop ▸ wordOfNNN_fields w

theorem wordOfXNN_eq {w : Word} {op : Nibble} (hop : (fieldOp w).val = op.val) : wordOfXNN op (fieldX w) (fieldNN w) = w :=
  Fin.ext hop ▸ wordOfXNN_fields w

theorem wordOfX_eq {w : Word} {op : Nibble} {nn : Byte} (hop : (fieldOp w).val = op.val)
    (hnn : (fieldNN w).toNat = nn.toNat) : wordOfXNN op (fieldX w) nn = w :=
  BitVec.eq_of_toNat_eq hnn ▸ wordOfXNN_eq hop

theorem wordOfXYN_eq {w : Word} {op : Nibble} (hop : (fieldOp w).val = op.val) :
    wordOfNibbles op (fieldX w) (fieldY w) (fieldN w) = w :=
  Fin.ext hop ▸ wordOfNibbles_fields w

theorem wordOfXY_eq {w : Word} {op n : Nibble} (hop : (fieldOp w).val = op.val) (hn : (fieldN w).val = n.val) :
    wordOfNibbles op (fieldX w) (fieldY w) n = w :=
  (Fin.ext hn : fieldN w = n) ▸ wordOfXYN_eq hop

/-! ### What the decoder can answer (R98 to R104) -/

/-- The two answers a decoder can give on a word: an instruction whose word it is, or the unknown opcode. -/
def IsReadingOf (w : Word) (r : Except DecodeReject Instr) : Prop :=
  (∃ i, r = .ok i ∧ encode i = w) ∨ r = .error (.unknownOpcode w)

theorem IsReadingOf.instr {w : Word} {i : Instr} (h : encode i = w) : IsReadingOf w (.ok i) := .inl ⟨i, rfl, h⟩

theorem IsReadingOf.unknown {w : Word} : IsReadingOf w (.error (.unknownOpcode w)) := .inr rfl

theorem decodeGroup0_isReadingOf (w : Word) : IsReadingOf w (decodeGroup0 w) := by
  unfold decodeGroup0
  split
  · exact .instr (Eq.symm ‹_›)
  · split
    · exact .instr (Eq.symm ‹_›)
    · exact .unknown

theorem decodeGroup5_isReadingOf {w : Word} (hop : (fieldOp w).val = 0x5) : IsReadingOf w (decodeGroup5 w) := by
  unfold decodeGroup5
  split
  next hn => exact .instr (wordOfXY_eq hop (congrArg _ hn))
  next => exact .unknown

theorem decodeGroup8_isReadingOf {w : Word} (hop : (fieldOp w).val = 0x8) : IsReadingOf w (decodeGroup8 w) := by
  unfold decodeGroup8
  split
  -- the last branch is the unknown opcode; every other one fixes `n`
  case h_10 => exact .unknown
  all_goals exact .instr (wordOfXY_eq hop ‹_›)

theorem decodeGroup9_isReadingOf {w : Word} (hop : (fieldOp w).val = 0x9) : IsReadingOf w (decodeGroup9 w) := by
  unfold decodeGroup9
  split
  next hn => exact .instr (wordOfXY_eq hop (congrArg _ hn))
  next => exact .unknown

theorem decodeGroupE_isReadingOf {w : Word} (hop : (fieldOp w).val = 0xE) : IsReadingOf w (decodeGroupE w) := by
  unfold decodeGroupE
  split
  -- the last branch is the unknown opcode; the other two fix `nn`
  case h_3 => exact .unknown
  all_goals exact .instr (wordOfX_eq hop ‹_›)

theorem decodeGroupF_isReadingOf {w : Word} (hop : (fieldOp w).val = 0xF) : IsReadingOf w (decodeGroupF w) := by
  unfold decodeGroupF
  split
  -- the last branch is the unknown opcode; every other one fixes `nn`
  case h_10 => exact .unknown
  all_goals exact .instr (wordOfX_eq hop ‹_›)

theorem decodeWord_isReadingOf (w : Word) : IsReadingOf w (decodeWord w) := by
  unfold decodeWord
  split
  next => exact decodeGroup0_isReadingOf w
  next hop => exact .instr (wordOfNNN_eq hop)
  next hop => exact .instr (wordOfNNN_eq hop)
  next hop => exact .instr (wordOfXNN_eq hop)
  next hop => exact .instr (wordOfXNN_eq hop)
  next hop => exact decodeGroup5_isReadingOf hop
  next hop => exact .instr (wordOfXNN_eq hop)
  next hop => exact .instr (wordOfXNN_eq hop)
  next hop => exact decodeGroup8_isReadingOf hop
  next hop => exact decodeGroup9_isReadingOf hop
  next hop => exact .instr (wordOfNNN_eq hop)
  next hop => exact .instr (wordOfNNN_eq hop)
  next hop => exact .instr (wordOfXNN_eq hop)
  next hop => exact .instr (wordOfXYN_eq hop)
  next hop => exact decodeGroupE_isReadingOf hop
  -- the catch-all branch: the fifteen values above are excluded and the field has four bits
  next =>
    simp only [imp_false] at *
    have hop : (fieldOp w).val = 0xF := by omega
    exact decodeGroupF_isReadingOf hop

/-- A word that decodes is the word of its instruction (R110). -/
theorem encode_of_decodeWord {w : Word} {i : Instr} (h : decodeWord w = .ok i) : encode i = w := by
  obtain ⟨j, hj, he⟩ | hu := decodeWord_isReadingOf w
  · rw [h] at hj
    cases hj
    exact he
  · rw [h] at hu
    cases hu

/-! ### The decoder inverts the encoder (R110) -/

theorem decodeWord_encode (i : Instr) : decodeWord (encode i) = .ok i := by
  cases i
  case cls | ret => rfl
  case seVxVy => simp [encode, decodeWord, decodeGroup5]
  case ldVxVy | orVxVy | andVxVy | xorVxVy | addVxVy | subVxVy | shrVx | subnVxVy | shlVx =>
    simp [encode, decodeWord, decodeGroup8]
  case sneVxVy => simp [encode, decodeWord, decodeGroup9]
  case skpVx | sknpVx => simp [encode, decodeWord, decodeGroupE]
  case ldVxDT | ldVxK | ldDTVx | ldSTVx | addIVx | ldFVx | ldBVx | ldMemVx | ldVxMem =>
    simp [encode, decodeWord, decodeGroupF]
  all_goals simp [encode, decodeWord]

theorem decodeWord_eq_ok_iff {w : Word} {i : Instr} : decodeWord w = .ok i ↔ encode i = w :=
  ⟨encode_of_decodeWord, fun h => h ▸ decodeWord_encode i⟩

/-! ### The encoder builds the words of every row (R97) -/

/-- The family `EncodesRow`, for every instruction. -/
theorem encode_hits_row : (i : Instr) → EncodesRow.Statement i
  | .cls => EncodesRow.cls
  | .ret => EncodesRow.ret
  | .jp nnn => EncodesRow.jp nnn
  | .call nnn => EncodesRow.call nnn
  | .seVxNn x nn => EncodesRow.seVxNn x nn
  | .sneVxNn x nn => EncodesRow.sneVxNn x nn
  | .seVxVy x y => EncodesRow.seVxVy x y
  | .ldVxNn x nn => EncodesRow.ldVxNn x nn
  | .addVxNn x nn => EncodesRow.addVxNn x nn
  | .ldVxVy x y => EncodesRow.ldVxVy x y
  | .orVxVy x y => EncodesRow.orVxVy x y
  | .andVxVy x y => EncodesRow.andVxVy x y
  | .xorVxVy x y => EncodesRow.xorVxVy x y
  | .addVxVy x y => EncodesRow.addVxVy x y
  | .subVxVy x y => EncodesRow.subVxVy x y
  | .shrVx x y => EncodesRow.shrVx x y
  | .subnVxVy x y => EncodesRow.subnVxVy x y
  | .shlVx x y => EncodesRow.shlVx x y
  | .sneVxVy x y => EncodesRow.sneVxVy x y
  | .ldINnn nnn => EncodesRow.ldINnn nnn
  | .jpV0Nnn nnn => EncodesRow.jpV0Nnn nnn
  | .rndVxNn x nn => EncodesRow.rndVxNn x nn
  | .drwVxVyN x y n => EncodesRow.drwVxVyN x y n
  | .skpVx x => EncodesRow.skpVx x
  | .sknpVx x => EncodesRow.sknpVx x
  | .ldVxDT x => EncodesRow.ldVxDT x
  | .ldVxK x => EncodesRow.ldVxK x
  | .ldDTVx x => EncodesRow.ldDTVx x
  | .ldSTVx x => EncodesRow.ldSTVx x
  | .addIVx x => EncodesRow.addIVx x
  | .ldFVx x => EncodesRow.ldFVx x
  | .ldBVx x => EncodesRow.ldBVx x
  | .ldMemVx x => EncodesRow.ldMemVx x
  | .ldVxMem x => EncodesRow.ldVxMem x

/-! ### A word that matches a row is built by the encoder (R97)

A masked word that equals the match value has the fields the row fixes, so it is rebuilt from them and its free fields; one
lemma for each format of R93. -/

section
variable {w p : Word} {op : Nibble}

theorem fieldOp_of_masked (h : w &&& 0xF000 = p) (hp : p.toNat = op.val * 4096) : (fieldOp w).val = op.val := by
  have hm := toNat_and_op w
  rw [h, hp] at hm
  rw [fieldOp_val]
  omega

theorem fields_of_masked_op_n {n : Nibble} (h : w &&& 0xF00F = p) (hp : p.toNat = op.val * 4096 + n.val) :
    (fieldOp w).val = op.val ∧ (fieldN w).val = n.val := by
  have hm := toNat_and_op_n w
  rw [h, hp] at hm
  rw [fieldOp_val, fieldN_val]
  omega

theorem fields_of_masked_op_nn {nn : Byte} (h : w &&& 0xF0FF = p) (hp : p.toNat = op.val * 4096 + nn.toNat) :
    (fieldOp w).val = op.val ∧ (fieldNN w).toNat = nn.toNat := by
  have hnn := nn.isLt
  have hm := toNat_and_op_nn w
  rw [h, hp] at hm
  rw [fieldOp_val, fieldNN_toNat]
  omega

theorem nnn_of_masked (h : w &&& 0xF000 = p) (hp : p.toNat = op.val * 4096) : wordOfNNN op (fieldNNN w) = w :=
  wordOfNNN_eq (fieldOp_of_masked h hp)

theorem xnn_of_masked (h : w &&& 0xF000 = p) (hp : p.toNat = op.val * 4096) :
    wordOfXNN op (fieldX w) (fieldNN w) = w :=
  wordOfXNN_eq (fieldOp_of_masked h hp)

theorem xyn_of_masked (h : w &&& 0xF000 = p) (hp : p.toNat = op.val * 4096) :
    wordOfNibbles op (fieldX w) (fieldY w) (fieldN w) = w :=
  wordOfXYN_eq (fieldOp_of_masked h hp)

theorem xy_of_masked {n : Nibble} (h : w &&& 0xF00F = p) (hp : p.toNat = op.val * 4096 + n.val) :
    wordOfNibbles op (fieldX w) (fieldY w) n = w :=
  have ⟨hop, hn⟩ := fields_of_masked_op_n h hp
  wordOfXY_eq hop hn

theorem x_of_masked {nn : Byte} (h : w &&& 0xF0FF = p) (hp : p.toNat = op.val * 4096 + nn.toNat) :
    wordOfXNN op (fieldX w) nn = w :=
  have ⟨hop, hnn⟩ := fields_of_masked_op_nn h hp
  wordOfX_eq hop hnn

theorem exact_of_masked (h : w &&& 0xFFFF = p) : p = w := by
  rw [← h]
  exact BitVec.and_allOnes

end

/-! ### The decoder against the table (R97, R107) -/

/-- A word that matches a row is the word of an instruction of that row: the table of R97 read from the word's side. -/
theorem exists_encode_of_row {w : Word} {k : Nat} {row : OpcodeRow} (hrow : opcodeRows[k]? = some row)
    (h : w &&& row.mask = row.pattern) : ∃ i, encode i = w ∧ Instr.rowIndex i = k :=
  match k, hrow with
  | 0, rfl => ⟨.cls, exact_of_masked h, rfl⟩
  | 1, rfl => ⟨.ret, exact_of_masked h, rfl⟩
  | 2, rfl => ⟨.jp _, nnn_of_masked h rfl, rfl⟩
  | 3, rfl => ⟨.call _, nnn_of_masked h rfl, rfl⟩
  | 4, rfl => ⟨.seVxNn _ _, xnn_of_masked h rfl, rfl⟩
  | 5, rfl => ⟨.sneVxNn _ _, xnn_of_masked h rfl, rfl⟩
  | 6, rfl => ⟨.seVxVy _ _, xy_of_masked h rfl, rfl⟩
  | 7, rfl => ⟨.ldVxNn _ _, xnn_of_masked h rfl, rfl⟩
  | 8, rfl => ⟨.addVxNn _ _, xnn_of_masked h rfl, rfl⟩
  | 9, rfl => ⟨.ldVxVy _ _, xy_of_masked h rfl, rfl⟩
  | 10, rfl => ⟨.orVxVy _ _, xy_of_masked h rfl, rfl⟩
  | 11, rfl => ⟨.andVxVy _ _, xy_of_masked h rfl, rfl⟩
  | 12, rfl => ⟨.xorVxVy _ _, xy_of_masked h rfl, rfl⟩
  | 13, rfl => ⟨.addVxVy _ _, xy_of_masked h rfl, rfl⟩
  | 14, rfl => ⟨.subVxVy _ _, xy_of_masked h rfl, rfl⟩
  | 15, rfl => ⟨.shrVx _ _, xy_of_masked h rfl, rfl⟩
  | 16, rfl => ⟨.subnVxVy _ _, xy_of_masked h rfl, rfl⟩
  | 17, rfl => ⟨.shlVx _ _, xy_of_masked h rfl, rfl⟩
  | 18, rfl => ⟨.sneVxVy _ _, xy_of_masked h rfl, rfl⟩
  | 19, rfl => ⟨.ldINnn _, nnn_of_masked h rfl, rfl⟩
  | 20, rfl => ⟨.jpV0Nnn _, nnn_of_masked h rfl, rfl⟩
  | 21, rfl => ⟨.rndVxNn _ _, xnn_of_masked h rfl, rfl⟩
  | 22, rfl => ⟨.drwVxVyN _ _ _, xyn_of_masked h rfl, rfl⟩
  | 23, rfl => ⟨.skpVx _, x_of_masked h rfl, rfl⟩
  | 24, rfl => ⟨.sknpVx _, x_of_masked h rfl, rfl⟩
  | 25, rfl => ⟨.ldVxDT _, x_of_masked h rfl, rfl⟩
  | 26, rfl => ⟨.ldVxK _, x_of_masked h rfl, rfl⟩
  | 27, rfl => ⟨.ldDTVx _, x_of_masked h rfl, rfl⟩
  | 28, rfl => ⟨.ldSTVx _, x_of_masked h rfl, rfl⟩
  | 29, rfl => ⟨.addIVx _, x_of_masked h rfl, rfl⟩
  | 30, rfl => ⟨.ldFVx _, x_of_masked h rfl, rfl⟩
  | 31, rfl => ⟨.ldBVx _, x_of_masked h rfl, rfl⟩
  | 32, rfl => ⟨.ldMemVx _, x_of_masked h rfl, rfl⟩
  | 33, rfl => ⟨.ldVxMem _, x_of_masked h rfl, rfl⟩

/-- Settles O5: both sides say that the word is one the encoder builds for an instruction of the row. -/
theorem decodeFollowsOpcodeTable : Obligations.DecodeFollowsOpcodeTable := by
  intro w k row hrow
  constructor
  · intro hmask
    obtain ⟨i, he, hk⟩ := exists_encode_of_row hrow hmask
    exact ⟨i, decodeWord_eq_ok_iff.mpr he, hk⟩
  · rintro ⟨i, hi, rfl⟩
    obtain ⟨row', hrow', hhit⟩ := encode_hits_row i
    obtain rfl : row' = row := Option.some.inj (hrow'.symm.trans hrow)
    rw [encode_of_decodeWord hi] at hhit
    exact eq_of_beq hhit

/-- The well-formed words are the words that decode (R103, R104). -/
theorem wellFormed_iff_decodes (w : Word) : Word.wellFormed w = true ↔ ∃ i, decodeWord w = .ok i := by
  constructor
  · intro hwf
    obtain ⟨row, hmem, hhit⟩ := List.any_eq_true.mp hwf
    obtain ⟨k, hrow⟩ := List.mem_iff_getElem?.mp hmem
    obtain ⟨i, hi, -⟩ := (decodeFollowsOpcodeTable w k row hrow).mp (eq_of_beq hhit)
    exact ⟨i, hi⟩
  · rintro ⟨i, hi⟩
    obtain ⟨row, hrow, hhit⟩ := encode_hits_row i
    rw [encode_of_decodeWord hi] at hhit
    exact List.any_eq_true.mpr ⟨row, List.mem_of_getElem? hrow, hhit⟩

/-- Settles O6: the decoder answers an instruction or the unknown opcode, and the first on the well-formed words alone. -/
theorem decodingIsTotal : Obligations.DecodingIsTotal := by
  intro w
  obtain ⟨i, hi, -⟩ | hu := decodeWord_isReadingOf w
  · exact .inl ⟨(wellFormed_iff_decodes w).mpr ⟨i, hi⟩, i, hi⟩
  · refine .inr ⟨?_, hu⟩
    rw [Bool.eq_false_iff, Ne, wellFormed_iff_decodes]
    rintro ⟨i, hi⟩
    rw [hu] at hi
    cases hi

end Sys2Proof
end

section
/-! PROOFS. Control transfer (spec/41_control.md R141, R143 to R148): what a jump, a skip, a CALL with room and a RET with an
entry answer, each said once; a jump and a skip are the state with another PC and nothing else. -/

namespace Sys2Proof.Machine

/-! ### Moving PC alone -/

/-- The frame of a jump and of a skip. -/
theorem onlyChanges_pc (s : State) (a : Word) : OnlyChanges [] [] [.pc] s { s with pc := a } where
  regs_kept _ _ := rfl
  mem_kept _ _ := rfl
  parts_kept p hp := by
    cases p with
    | pc => exact absurd (List.mem_singleton_self _) hp
    | random => exact ⟨rfl, rfl⟩
    | _ => rfl
  config_kept := rfl
  schedule_kept := rfl

theorem skipIf_eq (c : Bool) (s : State) : skipIf c s = { s with pc := if c then s.pc + 2 else s.pc } := by
  cases c <;> rfl

theorem onlyChanges_skipIf (c : Bool) (s : State) : OnlyChanges [] [] [.pc] s (skipIf c s) :=
  skipIf_eq c s ▸ onlyChanges_pc s _

theorem skipIf_beq_pc (a b : Byte) (s : State) : (skipIf (a == b) s).pc = if a = b then s.pc + 2 else s.pc := by
  simp only [skipIf_pc, beq_iff_eq]

theorem skipIf_bne_pc (a b : Byte) (s : State) : (skipIf (a != b) s).pc = if a = b then s.pc else s.pc + 2 := by
  simp only [skipIf_pc, bne_iff_ne, ite_not]

/-! ### Widened operands -/

theorem zextImm12_toNat (nnn : Imm12) : (zextImm12 nnn).toNat = nnn.toNat :=
  BitVec.toNat_setWidth_of_le (by decide)

theorem zextByte_toNat (b : Byte) : (zextByte b).toNat = b.toNat :=
  BitVec.toNat_setWidth_of_le (by decide)

/-- The sum of Bnnn fits in 16 bits, so it is the plain sum (R143). -/
theorem zextByte_add_zextImm12_toNat (b : Byte) (nnn : Imm12) :
    (zextByte b + zextImm12 nnn).toNat = b.toNat + nnn.toNat := by
  have hb := b.isLt
  have hn := nnn.isLt
  rw [BitVec.toNat_add, zextByte_toNat, zextImm12_toNat]
  omega

/-! ### CALL and RET when the stack allows them -/

theorem exec_call_of_room {s : State} (nnn : Imm12) (h : s.stack.length < s.config.stackDepth) :
    exec (.call nnn) s = .next { s with stack := (s.pc - 2) :: s.stack, pc := zextImm12 nnn } :=
  orRaise_of_ok _ _ (push_ok h)

theorem exec_ret_of_entry {s : State} {a : Word} {rest : List Word} (h : s.stack = a :: rest) :
    exec .ret s = .next { s with stack := rest, pc := a + 2 } :=
  orRaise_of_ok _ _ (pop_ok h)

/-! ### The statements of the family -/

/-- Settles O24: the CALL pushes `PC - 2`, its own address, and the RET goes 2 past what it pops. -/
theorem callThenReturnComesBack : Obligations.CallThenReturnComesBack := by
  intro s pc0 nnn hpc hroom
  refine ⟨_, exec_call_of_room nnn hroom, fun u hu => ⟨_, exec_ret_of_entry hu, ?_, rfl⟩⟩
  calc s.pc - 2 + 2 = s.pc := BitVec.sub_add_cancel _ _
    _ = pc0 + 2 := hpc

/-- Settles O19: both targets are the plain numbers, and only PC moves. -/
theorem jumpsGoToTheirTarget : Obligations.JumpsGoToTheirTarget := fun s nnn =>
  ⟨⟨_, rfl, zextImm12_toNat nnn, onlyChanges_pc s _⟩,
    ⟨_, rfl, zextByte_add_zextImm12_toNat (s.reg 0) nnn, onlyChanges_pc s _⟩⟩

/-- Settles O25: the two forms are skips on `V[x] = nn` and on its negation. -/
theorem immediateSkips : Obligations.ImmediateSkips := fun s x nn =>
  ⟨⟨_, rfl, skipIf_beq_pc (s.reg x) nn s, onlyChanges_skipIf _ s⟩,
    ⟨_, rfl, skipIf_bne_pc (s.reg x) nn s, onlyChanges_skipIf _ s⟩⟩

/-- Settles O26: the two forms are skips on `V[x] = V[y]` and on its negation. -/
theorem registerSkips : Obligations.RegisterSkips := fun s x y =>
  ⟨⟨_, rfl, skipIf_beq_pc (s.reg x) (s.reg y) s, onlyChanges_skipIf _ s⟩,
    ⟨_, rfl, skipIf_bne_pc (s.reg x) (s.reg y) s, onlyChanges_skipIf _ s⟩⟩

end Sys2Proof.Machine
end

section
/-! PROOFS. The arithmetic and logic unit without flags (spec/42_alu.md R165, R166, R169 to R172, R245): each of these
instructions answers the state with one register written and nothing else, so its frame is the frame of `setReg` and its
value is a fact about bytes. -/

namespace Sys2Proof.Machine

/-- The frame of a register write: memory and every part stay, and so does every other register. -/
theorem onlyChanges_setReg (s : State) (x : Reg) (b : Byte) : OnlyChanges [x] [] [] s (s.setReg x b) where
  regs_kept _ hr := reg_setReg_other s b (List.ne_of_not_mem_cons hr)
  mem_kept _ _ := rfl
  parts_kept p _ := by
    cases p with
    | random => exact ⟨rfl, rfl⟩
    | _ => rfl
  config_kept := rfl
  schedule_kept := rfl

/-- Settles O12: the byte written is the immediate, the old V[y] or DT, and reading V[x] gives it back. -/
theorem byteLoadsWriteTheirRegister : Obligations.ByteLoadsWriteTheirRegister := fun s x y nn =>
  ⟨⟨_, rfl, reg_setReg_same s x nn, onlyChanges_setReg s x nn⟩,
    ⟨_, rfl, reg_setReg_same s x (s.reg y), onlyChanges_setReg s x (s.reg y)⟩,
    ⟨_, rfl, reg_setReg_same s x s.dt, onlyChanges_setReg s x s.dt⟩⟩

/-- Settles O13: the sum of two bytes is the sum modulo 256, and V[x] alone is written. -/
theorem addImmediateWrapsWithoutFlag : Obligations.AddImmediateWrapsWithoutFlag := by
  intro s x nn
  refine ⟨_, rfl, ?_, onlyChanges_setReg s x (s.reg x + nn)⟩
  calc ((s.setReg x (s.reg x + nn)).reg x).toNat
      = (s.reg x + nn).toNat := by rw [reg_setReg_same]
    _ = ((s.reg x).toNat + nn.toNat) % 256 := BitVec.toNat_add _ _

/-- Settles O14: bit `b` of the byte written is the operation on the bits `b` of the operands. -/
theorem logicOperationsAreBitwise : Obligations.LogicOperationsAreBitwise := by
  intro s x y
  refine ⟨⟨_, rfl, fun b => ?_, onlyChanges_setReg s x (s.reg x ||| s.reg y)⟩,
    ⟨_, rfl, fun b => ?_, onlyChanges_setReg s x (s.reg x &&& s.reg y)⟩,
    ⟨_, rfl, fun b => ?_, onlyChanges_setReg s x (s.reg x ^^^ s.reg y)⟩⟩
  · rw [reg_setReg_same, BitVec.getLsbD_or]
  · rw [reg_setReg_same, BitVec.getLsbD_and]
  · rw [reg_setReg_same, BitVec.getLsbD_xor]

end Sys2Proof.Machine
end

section
/-! PROOFS. The index register and the block transfers (spec/43_index_memory.md R191, R193, R196 to R198): what Annn and Fx29
leave unchanged, what Fx55 and Fx65 answer in range, and what a read of the block or of a register gives afterwards. -/

namespace Sys2Proof.Machine

/-! ### Loading I -/

/-- The frame of Annn (R191). -/
theorem onlyChanges_index (s : State) (a : Word) : OnlyChanges [] [] [.index] s { s with index := a } where
  regs_kept _ _ := rfl
  mem_kept _ _ := rfl
  parts_kept p hp := by
    cases p with
    | index => exact absurd (List.mem_singleton_self _) hp
    | random => exact ⟨rfl, rfl⟩
    | _ => rfl
  config_kept := rfl
  schedule_kept := rfl

/-- The frame of Fx29, which marks redraw beside loading I (R193). -/
theorem onlyChanges_index_redraw (s : State) (a : Word) (b : Bool) :
    OnlyChanges [] [] [.index, .redraw] s { s with index := a, redraw := b } where
  regs_kept _ _ := rfl
  mem_kept _ _ := rfl
  parts_kept p hp := by
    cases p with
    | index => exact absurd List.mem_cons_self hp
    | redraw => exact absurd (List.mem_cons_of_mem _ List.mem_cons_self) hp
    | random => exact ⟨rfl, rfl⟩
    | _ => rfl
  config_kept := rfl
  schedule_kept := rfl

/-- Five times a byte is at most 1275, so the product of Fx29 is the plain product (R193). -/
theorem zextByte_mul_five_toNat (b : Byte) : (zextByte b * 5).toNat = b.toNat * 5 := by
  have hb := b.isLt
  rw [BitVec.toNat_mul, zextByte_toNat]
  exact Nat.mod_eq_of_lt (show b.toNat * 5 < 65536 by omega)

/-! ### Block transfers in range -/

theorem dataAddr_eq_add (s : State) (k : Nat) : dataAddr s k = dataAddr s 0 + k := rfl

theorem dataAddr_of_index_eq {s u : State} (h : u.index = s.index) (k : Nat) : dataAddr u k = dataAddr s k := by
  rw [dataAddr, dataAddr, h]

theorem exec_ldMemVx_of_inRange {s : State} {x : Reg} (h : dataAddr s x.val ≤ 0xFFF) :
    exec (.ldMemVx x) s =
      .next { s with mem := Memory.writeBytes s.mem (dataAddr s 0) (s.regs (blockCount x)) } := by
  refine orRaise_of_ok s id (writeBlock_ok (.inr ?_))
  rwa [length_blockRegs]

theorem exec_ldVxMem_of_inRange {s : State} {x : Reg} (h : dataAddr s x.val ≤ 0xFFF) :
    exec (.ldVxMem x) s = .next (s.setRegs 0 (Memory.readBytes s.mem (dataAddr s 0) (blockCount x))) :=
  orRaise_of_ok s _ (readBlock_ok (.inr h))

/-- A read of the block just stored by Fx55 gives the register (R196). -/
theorem read_writeBytes_regs (s : State) (m : Memory) {x k : Reg} (hk : k ≤ x) :
    Memory.read (Memory.writeBytes m (dataAddr s 0) (s.regs (blockCount x))) (dataAddr s k.val) = s.reg k := by
  have hlen : k.val < (s.regs (blockCount x)).length := by
    rw [length_blockRegs]
    exact Nat.lt_succ_of_le hk
  rw [dataAddr_eq_add s k.val, Memory.read_writeBytes_inside _ m _ k.val hlen, getElem_regs]

/-- A register that Fx65 reaches holds the byte of the block at its own offset (R197). -/
theorem reg_setRegs_readBytes (s : State) (m : Memory) (base : Nat) {x k : Reg} (hk : k ≤ x) :
    (s.setRegs 0 (Memory.readBytes m base (blockCount x))).reg k = Memory.read m (base + k.val) := by
  have hlen : k.val - 0 < (Memory.readBytes m base (blockCount x)).length := by
    rw [Memory.length_readBytes]
    exact Nat.lt_succ_of_le hk
  rw [reg_setRegs, dif_pos ⟨Nat.zero_le _, hlen⟩, Memory.getElem_readBytes, Nat.sub_zero]

/-! ### The statements of the family -/

/-- Settles O33: `V[k]` is loaded from the byte at `I + k`, where the store put the old `V[k]` and nothing stored since. -/
theorem storeThenLoadRestores : Obligations.StoreThenLoadRestores := by
  intro s x hrange
  refine ⟨_, exec_ldMemVx_of_inRange hrange, fun u hindex hblock => ?_⟩
  have haddr : ∀ k, dataAddr u k = dataAddr s k := dataAddr_of_index_eq hindex
  refine ⟨_, exec_ldVxMem_of_inRange (haddr x.val ▸ hrange), fun k hk => ?_⟩
  calc (u.setRegs 0 (Memory.readBytes u.mem (dataAddr u 0) (blockCount x))).reg k
      = Memory.read u.mem (dataAddr u k.val) := reg_setRegs_readBytes u u.mem (dataAddr u 0) hk
    _ = Memory.read u.mem (dataAddr s k.val) := by rw [haddr]
    _ = Memory.read (Memory.writeBytes s.mem (dataAddr s 0) (s.regs (blockCount x))) (dataAddr s k.val) :=
        hblock k.val hk
    _ = s.reg k := read_writeBytes_regs s s.mem hk

/-- Settles O27: both values are the plain numbers, and only I, for Fx29 also redraw, is written. -/
theorem indexLoads : Obligations.IndexLoads := fun s x nnn =>
  ⟨⟨_, rfl, zextImm12_toNat nnn, onlyChanges_index s _⟩,
    ⟨_, rfl, zextByte_mul_five_toNat (s.reg x), rfl, onlyChanges_index_redraw s _ _⟩⟩

end Sys2Proof.Machine
end

section
/-! PROOFS. The display (spec/44_display.md R38, R210, R218): the frames of 00E0 and of `clearRedraw`, and what a step can do
to the redraw flag, said once for an instruction, for a transaction other than the cycle, and for the whole step. -/

namespace Sys2Proof.Machine

/-! ### Frames -/

/-- The frame of 00E0 (R210). -/
theorem onlyChanges_pix_redraw (s : State) (p : Pixels) (b : Bool) :
    OnlyChanges [] [] [.pix, .redraw] s { s with pix := p, redraw := b } where
  regs_kept _ _ := rfl
  mem_kept _ _ := rfl
  parts_kept q hq := by
    cases q with
    | pix => exact absurd List.mem_cons_self hq
    | redraw => exact absurd (List.mem_cons_of_mem _ List.mem_cons_self) hq
    | random => exact ⟨rfl, rfl⟩
    | _ => rfl
  config_kept := rfl
  schedule_kept := rfl

/-- The frame of `clearRedraw` as a transaction, which begins with an empty error channel (R13, R218). -/
theorem onlyChanges_redraw_report (s : State) (b : Bool) (r : Option Report) :
    OnlyChanges [] [] [.redraw, .report] s { s with redraw := b, report := r } where
  regs_kept _ _ := rfl
  mem_kept _ _ := rfl
  parts_kept q hq := by
    cases q with
    | redraw => exact absurd List.mem_cons_self hq
    | report => exact absurd (List.mem_cons_of_mem _ List.mem_cons_self) hq
    | random => exact ⟨rfl, rfl⟩
    | _ => rfl
  config_kept := rfl
  schedule_kept := rfl

/-! ### What keeps the redraw flag -/

@[simp] theorem setRegs_redraw (s : State) (i : Nat) (bs : List Byte) : (s.setRegs i bs).redraw = s.redraw := by
  obtain ⟨v, hv⟩ := setRegs_eq bs s i
  rw [hv]

@[simp] theorem drawByte_redraw (s : State) : (drawByte s).2.redraw = s.redraw := by
  obtain ⟨src, k, hk⟩ := drawByte_eq s
  rw [hk]

@[simp] theorem onKeyReleased_redraw (c : Key) (s : State) : (onKeyReleased c s).redraw = s.redraw := by
  unfold onKeyReleased resolveWait
  split <;> rfl

@[simp] theorem load_redraw (bytes : List Byte) (s : State) : (load bytes s).redraw = s.redraw := by
  unfold load
  split <;> rfl

/-! ### What a step does to the redraw flag (R38, R218) -/

/-- The instructions that mark redraw (R193, R210, R212). -/
def MarksRedraw (i : Instr) : Prop :=
  i = .cls ∨ (∃ x y n, i = .drwVxVyN x y n) ∨ ∃ x, i = .ldFVx x

/-- An instruction keeps the redraw flag or is one of the three that set it. -/
theorem exec_redraw_cases {i : Instr} {s t : State} (h : exec i s = .next t) :
    t.redraw = s.redraw ∨ (t.redraw = true ∧ MarksRedraw i) := by
  cases i
  case cls => exact .inr ⟨next_inj h ▸ rfl, .inl rfl⟩
  case ldFVx x => exact .inr ⟨next_inj h ▸ rfl, .inr (.inr ⟨x, rfl⟩)⟩
  case drwVxVyN x y n =>
    obtain ⟨-, d, -, rfl⟩ | ⟨-, -, rfl⟩ := execDrw_cases h
    · exact .inr ⟨rfl, .inr (.inl ⟨x, y, n, rfl⟩)⟩
    · exact .inl rfl
  case ret => obtain ⟨a, rest, -, rfl⟩ | ⟨-, rfl⟩ := execRet_cases h <;> exact .inl rfl
  case call => obtain ⟨-, rfl⟩ | ⟨-, rfl⟩ := execCall_cases h <;> exact .inl rfl
  case ldBVx => obtain ⟨-, rfl⟩ | ⟨-, rfl⟩ := execLdB_cases h <;> exact .inl rfl
  case ldMemVx => obtain ⟨-, rfl⟩ | ⟨-, rfl⟩ := execLdMem_cases h <;> exact .inl rfl
  case ldVxMem =>
    obtain ⟨-, rfl⟩ | ⟨-, rfl⟩ := execLdVxMem_cases h
    · exact .inl (setRegs_redraw s 0 _)
    · exact .inl rfl
  case seVxNn | sneVxNn | seVxVy | sneVxVy | skpVx | sknpVx => exact .inl (next_inj h ▸ skipIf_redraw _ s)
  case rndVxNn => exact .inl (next_inj h ▸ drawByte_redraw s)
  -- the others have one answer, an update of other fields
  all_goals exact .inl (next_inj h ▸ rfl)

/-- A transaction other than the cycle keeps the redraw flag, or is one of the two that clear it. -/
theorem perform_redraw_cases {a : Transaction} {s t : State} (ha : a ≠ .cycle) (h : perform a s = .next t) :
    t.redraw = s.redraw ∨ (t.redraw = false ∧ (a = .clearRedraw ∨ a = .reset)) := by
  cases a with
  | cycle => exact absurd rfl ha
  | updateTimers => exact .inl (next_inj h ▸ updateTimers_redraw s)
  | onKeyPressed c => exact .inl (next_inj h ▸ setKey_redraw s c true)
  | onKeyReleased c => exact .inl (next_inj h ▸ onKeyReleased_redraw c s)
  | load bytes => exact .inl (next_inj h ▸ load_redraw bytes s)
  | clearRedraw => exact .inr ⟨next_inj h ▸ rfl, .inl rfl⟩
  | reset => exact .inr ⟨next_inj h ▸ rfl, .inr rfl⟩

/-- A word's execution keeps the redraw flag, or the word is that of an instruction which sets it. -/
theorem executeWord_redraw_cases {w : Word} {s t : State} (h : executeWord w s = .next t) :
    t.redraw = s.redraw ∨ (t.redraw = true ∧ ∃ i, decodeWord w = .ok i ∧ MarksRedraw i) := by
  unfold executeWord at h
  split at h
  next i hi => exact (exec_redraw_cases h).imp_right fun ⟨ht, hm⟩ => ⟨ht, i, hi, hm⟩
  next => exact .inl (next_inj h ▸ rfl)

/-- A step keeps the redraw flag, clears it as `clearRedraw` or reset, or sets it as an instruction that marks redraw. -/
theorem step_redraw_cases {s t : State} (h : step s = .next t) :
    t.redraw = s.redraw ∨
    (t.redraw = false ∧ (nextTransaction s = .clearRedraw ∨ nextTransaction s = .reset)) ∨
    (t.redraw = true ∧ CycleExecutes s ∧ ∃ i, decodeWord (wordAtPc s) = .ok i ∧ MarksRedraw i) := by
  obtain ⟨hother, hs⟩ | ⟨-, -, hs⟩ | ⟨-, -, -, hs⟩ | ⟨hexec, hs⟩ := step_cases s
  · exact (perform_redraw_cases hother (hs.symm.trans h)).imp_right .inl
  · exact .inl (next_inj (hs.symm.trans h) ▸ rfl)
  · exact .inl (next_inj (hs.symm.trans h) ▸ rfl)
  · exact (executeWord_redraw_cases (hs.symm.trans h)).imp_right fun ⟨ht, hm⟩ => .inr ⟨ht, hexec, hm⟩

theorem step_clearRedraw {s : State} (h : nextTransaction s = .clearRedraw) :
    step s = .next (clearRedraw (beginTransaction s)) := by
  rw [step, h]
  rfl

/-! ### The statements of the family -/

/-- Settles O44: the step is the named update, and of the ways a step can leave the flag only `clearRedraw` and reset
take it from set to clear. -/
theorem clearRedrawTouchesOnlyTheFlag : Obligations.ClearRedrawTouchesOnlyTheFlag := by
  refine ⟨fun s hn => ⟨_, step_clearRedraw hn, rfl, rfl, onlyChanges_redraw_report _ false none⟩,
    fun s t h hset hclear => ?_⟩
  obtain hkept | ⟨-, hcause⟩ | ⟨hmarked, -⟩ := step_redraw_cases h
  · rw [hkept, hset] at hclear
    cases hclear
  · exact hcause
  · rw [hmarked] at hclear
    cases hclear

/-- Settles O34: the buffer written is the blank one, and redraw is the only other field. -/
theorem clearScreen : Obligations.ClearScreen := fun s =>
  ⟨_, rfl, fun k _ => Pixels.cell_blank k, rfl, onlyChanges_pix_redraw s blankPixels true⟩

end Sys2Proof.Machine
end

section
/-! PROOFS. The keypad and the timer loads (spec/45_keypad_timers.md R235, R240, R241, R246, R247): the frame of an update
of one part, how frames compose, what `setKey` and `resolveWait` answer, and the two key events as whole steps. -/

namespace Sys2Proof.Machine

/-! ### Frames of one part, and their composition -/

/-- What leaves registers, memory, the parameters and the schedule as they are, and every part but `q`, changes `q` alone. -/
theorem onlyChanges_part {q : Part} {s t : State} (hv : t.v = s.v) (hmem : t.mem = s.mem) (hconfig : t.config = s.config)
    (hschedule : t.schedule = s.schedule) (hparts : ∀ p, p = q ∨ p.kept s t) : OnlyChanges [] [] [q] s t where
  regs_kept r _ := reg_of_v_eq hv r
  mem_kept _ _ := by rw [hmem]
  parts_kept p hp := (hparts p).resolve_left (List.ne_of_not_mem_cons hp)
  config_kept := hconfig
  schedule_kept := hschedule

theorem onlyChanges_status (s : State) (q : Status) : OnlyChanges [] [] [.status] s { s with status := q } :=
  onlyChanges_part rfl rfl rfl rfl fun p => by cases p <;> simp [Part.kept]

theorem onlyChanges_dt (s : State) (b : Byte) : OnlyChanges [] [] [.dt] s { s with dt := b } :=
  onlyChanges_part rfl rfl rfl rfl fun p => by cases p <;> simp [Part.kept]

theorem onlyChanges_st (s : State) (b : Byte) : OnlyChanges [] [] [.st] s { s with st := b } :=
  onlyChanges_part rfl rfl rfl rfl fun p => by cases p <;> simp [Part.kept]

theorem onlyChanges_report (s : State) (r : Option Report) : OnlyChanges [] [] [.report] s { s with report := r } :=
  onlyChanges_part rfl rfl rfl rfl fun p => by cases p <;> simp [Part.kept]

theorem onlyChanges_setKey (s : State) (c : Key) (b : Bool) : OnlyChanges [] [] [.keys] s (setKey s c b) :=
  onlyChanges_part rfl rfl rfl rfl fun p => by cases p <;> simp [Part.kept]

theorem Part.kept.trans {p : Part} {s t u : State} (hst : p.kept s t) (htu : p.kept t u) : p.kept s u := by
  cases p with
  | random => exact ⟨htu.1.trans hst.1, htu.2.trans hst.2⟩
  | _ => exact Eq.trans htu hst

/-- Two transitions in a row change what the one or the other changes. -/
theorem OnlyChanges.trans {regs regs' : List Reg} {stored stored' : List Nat} {parts parts' : List Part} {s t u : State}
    (hst : OnlyChanges regs stored parts s t) (htu : OnlyChanges regs' stored' parts' t u) :
    OnlyChanges (regs ++ regs') (stored ++ stored') (parts ++ parts') s u where
  regs_kept r hr := (htu.regs_kept r fun h => hr (List.mem_append_right _ h)).trans
    (hst.regs_kept r fun h => hr (List.mem_append_left _ h))
  mem_kept a ha := (htu.mem_kept a fun h => ha (List.mem_append_right _ h)).trans
    (hst.mem_kept a fun h => ha (List.mem_append_left _ h))
  parts_kept p hp := (hst.parts_kept p fun h => hp (List.mem_append_left _ h)).trans
    (htu.parts_kept p fun h => hp (List.mem_append_right _ h))
  config_kept := htu.config_kept.trans hst.config_kept
  schedule_kept := htu.schedule_kept.trans hst.schedule_kept

/-! ### The keys (R39) -/

theorem setKey_keys_get (s : State) (c k : Key) (b : Bool) :
    (setKey s c b).keys.get k = if c = k then b else s.keys.get k := by
  simp only [setKey_keys, Vector.get_eq_getElem, Vector.getElem_set, Fin.ext_iff]

theorem setKey_keys_get_same (s : State) (c : Key) (b : Bool) : (setKey s c b).keys.get c = b := by
  rw [setKey_keys_get, if_pos rfl]

theorem setKey_keys_get_other (s : State) {c k : Key} (b : Bool) (h : k ≠ c) :
    (setKey s c b).keys.get k = s.keys.get k := by
  rw [setKey_keys_get, if_neg h.symm]

/-! ### The end of a wait (R241) -/

theorem resolveWait_of_waiting {s : State} {r : Reg} (c : Key) (h : s.status = .waitingForKey r) :
    resolveWait c s = { s.setReg r (BitVec.ofNat 8 c.val) with status := .running } := by
  rw [resolveWait, h]

theorem resolveWait_of_not_waiting {s : State} (c : Key) (h : ∀ r, s.status ≠ .waitingForKey r) : resolveWait c s = s := by
  unfold resolveWait
  split
  next r hr => exact absurd hr (h r)
  next => rfl
  next => rfl

theorem onKeyReleased_of_waiting {s : State} {r : Reg} (c : Key) (h : s.status = .waitingForKey r) :
    onKeyReleased c s = { (setKey s c false).setReg r (BitVec.ofNat 8 c.val) with status := .running } :=
  resolveWait_of_waiting c ((setKey_status s c false).trans h)

theorem onKeyReleased_of_not_waiting {s : State} (c : Key) (h : ∀ r, s.status ≠ .waitingForKey r) :
    onKeyReleased c s = setKey s c false :=
  resolveWait_of_not_waiting c h

@[simp] theorem resolveWait_keys (c : Key) (s : State) : (resolveWait c s).keys = s.keys := by
  unfold resolveWait
  split <;> rfl

@[simp] theorem resolveWait_report (c : Key) (s : State) : (resolveWait c s).report = s.report := by
  unfold resolveWait
  split <;> rfl

/-- A key code is below 16, so the byte written to the target is the code itself. -/
theorem keyByte_toNat (c : Key) : (BitVec.ofNat 8 c.val : Byte).toNat = c.val :=
  Nat.mod_eq_of_lt (show c.val < 2 ^ 8 by omega)

/-! ### The key events as steps -/

theorem step_of_nextTransaction {s : State} {a : Transaction} (h : nextTransaction s = a) :
    step s = perform a (beginTransaction s) := by
  rw [step, h]

/-- The frame of a key's boolean set by a transaction, whose error channel begins empty (R13). -/
theorem onlyChanges_setKey_begin (s : State) (c : Key) (b : Bool) :
    OnlyChanges [] [] [.keys, .report] { s with schedule := s.schedule.tail } (setKey (beginTransaction s) c b) :=
  (onlyChanges_setKey _ c b).trans (onlyChanges_report _ none)

/-- The frame of the release that ends a wait with target `r` (R241). -/
theorem onlyChanges_release_of_waiting {s : State} {r : Reg} (c : Key) (h : s.status = .waitingForKey r) :
    OnlyChanges [r] [] [.keys, .status, .report] { s with schedule := s.schedule.tail }
      (onKeyReleased c (beginTransaction s)) := by
  rw [onKeyReleased_of_waiting c ((beginTransaction_status s).trans h)]
  exact (((onlyChanges_setKey _ c false).trans (onlyChanges_setReg _ r _)).trans (onlyChanges_status _ .running)).trans
    (onlyChanges_report _ none)

/-! ### The statements of the family -/

/-- Settles O43: the key is cleared first; then `resolveWait` writes the code and ends the wait, or answers the state it
was given. -/
theorem keyReleaseEndsTheWait : Obligations.KeyReleaseEndsTheWait := by
  intro s c hn
  have hkeys : (onKeyReleased c (beginTransaction s)).keys = (setKey (beginTransaction s) c false).keys :=
    resolveWait_keys c _
  refine ⟨_, step_of_nextTransaction hn, ?_, fun k hk => ?_, resolveWait_report c _, fun r hr => ?_, fun hr => ?_⟩
  · rw [hkeys, setKey_keys_get_same]
  · rw [hkeys, setKey_keys_get_other _ _ hk, beginTransaction_keys]
  · have hend := onKeyReleased_of_waiting c ((beginTransaction_status s).trans hr)
    have hreg : (onKeyReleased c (beginTransaction s)).reg r = BitVec.ofNat 8 c.val :=
      (congrArg (State.reg · r) hend).trans (reg_setReg_same _ r _)
    exact ⟨by rw [hreg, keyByte_toNat], congrArg State.status hend, onlyChanges_release_of_waiting c hr⟩
  · have hsame : onKeyReleased c (beginTransaction s) = setKey (beginTransaction s) c false :=
      onKeyReleased_of_not_waiting c hr
    exact hsame ▸ onlyChanges_setKey_begin s c false

/-- Settles O42: the press is `setKey` alone, in every status. -/
theorem keyPressSetsItsKey : Obligations.KeyPressSetsItsKey := fun s c hn =>
  ⟨_, step_of_nextTransaction hn, setKey_keys_get_same _ c true, fun _ hk => setKey_keys_get_other _ true hk, rfl,
    onlyChanges_setKey_begin s c true⟩

/-- Settles O39: the one answer sets the status and nothing else. -/
theorem keyWaitIsEntered : Obligations.KeyWaitIsEntered := fun s x =>
  ⟨_, rfl, rfl, onlyChanges_status s (.waitingForKey x)⟩

/-- Settles O40: each load has one answer, which sets its timer and nothing else. -/
theorem timerLoads : Obligations.TimerLoads := fun s x =>
  ⟨⟨_, rfl, rfl, onlyChanges_dt s (s.reg x)⟩, ⟨_, rfl, rfl, onlyChanges_st s (s.reg x)⟩⟩

end Sys2Proof.Machine
end

section
/-! PROOFS. Program load and the machine at a standstill (spec/70_reset_and_hazards.md R308, R332): what `load` answers for a
program that fits and for a longer one, the frame of bytes stored from an address on, and the one lemma on a machine that
does not run: no step but a reset, or a release that ends a wait, touches its CPU. -/

namespace Sys2Proof.Machine

/-! ### Program load (R308) -/

theorem load_of_fits {bytes : List Byte} (s : State) (h : bytes.length ≤ maxProgramBytes) :
    load bytes s = { s with mem := Memory.writeBytes s.mem loadAddr bytes } :=
  if_pos (decide_eq_true h)

theorem load_of_tooLong {bytes : List Byte} (s : State) (h : maxProgramBytes < bytes.length) :
    load bytes s = { s with report := some .programTooLarge } :=
  if_neg fun hfits => Nat.not_le_of_lt h (of_decide_eq_true hfits)

/-- The frame of a store: the addresses of the bytes stored, and no part. -/
theorem onlyChanges_writeBytes (s : State) (base : Nat) (bytes : List Byte) :
    OnlyChanges [] ((List.range bytes.length).map (fun k => base + k)) [] s
      { s with mem := Memory.writeBytes s.mem base bytes } where
  regs_kept _ _ := rfl
  mem_kept a ha := by
    refine Memory.read_writeBytes_outside bytes s.mem base ?_
    by_contra hin
    exact ha (List.mem_map.mpr ⟨a - base, List.mem_range.mpr (by omega), by omega⟩)
  parts_kept p _ := by
    cases p with
    | random => exact ⟨rfl, rfl⟩
    | _ => rfl
  config_kept := rfl
  schedule_kept := rfl

/-- Settles O45: a program that fits is read back where it was stored and only its own addresses are written; a longer one
only goes to the error channel. -/
theorem loadCopiesTheProgram : Obligations.LoadCopiesTheProgram := by
  intro s bytes hn
  have hstep : step s = .next (load bytes (beginTransaction s)) := step_of_nextTransaction hn
  constructor
  · intro hfits
    rw [load_of_fits _ hfits] at hstep
    exact ⟨_, hstep, rfl, Memory.read_writeBytes_inside bytes s.mem loadAddr,
      (onlyChanges_report _ none).trans (onlyChanges_writeBytes _ loadAddr bytes)⟩
  · intro hlong
    rw [load_of_tooLong _ hlong] at hstep
    exact ⟨_, hstep, rfl, onlyChanges_report _ (some .programTooLarge)⟩

/-! ### A machine that does not run (R121, R236, R332) -/

/-- The status and what only the CPU and reset write. -/
structure CpuView where
  status : Status
  pc : Word
  lastOpcode : Word
  stack : List Word
  index : Word
  pix : Pixels
  v : Vector Byte 16

def State.cpuView (s : State) : CpuView :=
  { status := s.status, pc := s.pc, lastOpcode := s.lastOpcode, stack := s.stack, index := s.index, pix := s.pix, v := s.v }

/-- Either answer of `load` keeps the CPU: one writes memory, the other the error channel. -/
theorem cpuView_load (bytes : List Byte) (s : State) : (load bytes s).cpuView = s.cpuView := by
  obtain hfits | hlong := le_or_gt bytes.length maxProgramBytes
  · rw [load_of_fits s hfits]
    rfl
  · rw [load_of_tooLong s hlong]
    rfl

/-- A release that finds no wait to end keeps the CPU (R241). -/
theorem cpuView_onKeyReleased {s : State} (c : Key) (h : ∀ r, s.status ≠ .waitingForKey r) :
    (onKeyReleased c s).cpuView = s.cpuView := by
  rw [onKeyReleased_of_not_waiting c h]
  rfl

/-- A transaction other than the cycle and reset keeps the CPU, unless it is the release that ends a wait. -/
theorem perform_cpuView {a : Transaction} {s t : State} (h : perform a s = .next t) (hcycle : a ≠ .cycle)
    (hreset : a ≠ .reset) (hrelease : ∀ c r, a = .onKeyReleased c → s.status ≠ .waitingForKey r) :
    t.cpuView = s.cpuView := by
  cases a with
  | cycle => exact absurd rfl hcycle
  | updateTimers => exact next_inj h ▸ rfl
  | onKeyPressed c => exact next_inj h ▸ rfl
  | onKeyReleased c => exact next_inj h ▸ cpuView_onKeyReleased c fun r => hrelease c r rfl
  | clearRedraw => exact next_inj h ▸ rfl
  | load bytes => exact next_inj h ▸ cpuView_load bytes s
  | reset => exact absurd rfl hreset

/-- A machine that does not run keeps its CPU through every step but reset and the release that ends a wait. -/
theorem step_cpuView_of_not_running {s t : State} (h : step s = .next t) (hstatus : s.status ≠ .running)
    (hreset : nextTransaction s ≠ .reset)
    (hrelease : ∀ c r, nextTransaction s = .onKeyReleased c → s.status ≠ .waitingForKey r) :
    t.cpuView = s.cpuView := by
  obtain ⟨hother, hs⟩ | ⟨-, -, hs⟩ | ⟨-, hrun, -⟩ | ⟨⟨-, hrun, -⟩, -⟩ := step_cases s
  · exact perform_cpuView (s := beginTransaction s) (hs.symm.trans h) hother hreset hrelease
  · exact next_inj (hs.symm.trans h) ▸ rfl
  · exact absurd hrun hstatus
  · exact absurd hrun hstatus

/-- Settles O48: a waiting machine does not run, and the step is no release. -/
theorem waitIsLiftedOnlyByReleaseOrReset : Obligations.WaitIsLiftedOnlyByReleaseOrReset := by
  intro s t r hwait h hrelease hreset
  have hrun : s.status ≠ .running := by simp [hwait]
  have hcpu := step_cpuView_of_not_running h hrun hreset fun c _ hc => absurd hc (hrelease c)
  obtain ⟨hstatus, hpc, hlatch, hstack, hindex, hpix, hv⟩ := CpuView.mk.inj hcpu
  exact ⟨hstatus.trans hwait, hpc, hlatch, hstack, hindex, hpix, reg_of_v_eq hv⟩

end Sys2Proof.Machine
end

section
/-! PROOFS. The encoder and the decoder as inverses (spec/30_encoding.md R90, R110), word by word and byte by byte, and the
words written out from the opcode map (R96, R97, R103). -/

namespace Sys2Proof

/-- The decoder reads a word from its two bytes and leaves the bytes after them alone (R90). -/
theorem decodeBytes_bytesOfWord_append (w : Word) (rest : List Byte) :
    decodeBytes (bytesOfWord w ++ rest) = (decodeWord w).map (fun i => (i, rest)) := by
  simp [bytesOfWord, decodeBytes]

/-- Settles O3: the decoder inverts the encoder on words, and on bytes it reads exactly the two of the word. -/
theorem decodeOfEncodeIsIdentity : Obligations.DecodeOfEncodeIsIdentity := by
  intro i
  refine ⟨decodeWord_encode i, fun rest => ?_⟩
  rw [encodeBytes, decodeBytes_bytesOfWord_append, decodeWord_encode]
  rfl

/-- Settles O4: every answer of the decoder that is an instruction is one whose word was read. -/
theorem encodeOfDecodeIsIdentity : Obligations.EncodeOfDecodeIsIdentity := fun _ _ => encode_of_decodeWord

/-- Settles O1: the first eight words are the words of their instructions, the last two match no branch of their group. -/
theorem specWordsDecode : Obligations.SpecWordsDecode :=
  ⟨decodeWord_encode (.jp 0x234), decodeWord_encode .cls, decodeWord_encode .ret, decodeWord_encode (.drwVxVyN 1 2 15),
    decodeWord_encode (.addVxVy 0xA 0xB), decodeWord_encode (.shrVx 1 2), decodeWord_encode (.ldVxMem 0),
    decodeWord_encode (.skpVx 1), rfl, rfl⟩

end Sys2Proof
end

section
/-! PROOFS. Control transfer and the faults of the call stack (spec/41_control.md R140, R142), the key skips
(spec/45_keypad_timers.md R230 to R232) and the accesses to memory (spec/43_index_memory.md R192, R195 to R197): what each
instruction answers where it goes on and where it raises its error, and the frames of both. -/

namespace Sys2Proof.Machine

/-! ### Frames -/

/-- A wider list of what may change is a weaker frame. -/
theorem OnlyChanges.mono {regs regs' : List Reg} {stored stored' : List Nat} {parts parts' : List Part} {s t : State}
    (h : OnlyChanges regs stored parts s t) (hregs : regs ⊆ regs') (hstored : stored ⊆ stored') (hparts : parts ⊆ parts') :
    OnlyChanges regs' stored' parts' s t where
  regs_kept r hr := h.regs_kept r fun hin => hr (hregs hin)
  mem_kept a ha := h.mem_kept a fun hin => ha (hstored hin)
  parts_kept p hp := h.parts_kept p fun hin => hp (hparts hin)
  config_kept := h.config_kept
  schedule_kept := h.schedule_kept

theorem onlyChanges_stack (s : State) (l : List Word) : OnlyChanges [] [] [.stack] s { s with stack := l } :=
  onlyChanges_part rfl rfl rfl rfl fun p => by cases p <;> simp [Part.kept]

/-- The frame of a fatal error: the status and the error channel, so none of the instruction's own effects (R276). -/
theorem onlyChanges_faultState (e : FatalError) (s : State) : OnlyChanges [] [] [.status, .report] s (faultState e s) :=
  (onlyChanges_status s (.faulted e)).trans (onlyChanges_report _ (some (.fatal e)))

/-- The frame of CALL and RET. -/
theorem onlyChanges_pc_stack (s : State) (a : Word) (l : List Word) :
    OnlyChanges [] [] [.pc, .stack] s { s with stack := l, pc := a } :=
  (onlyChanges_pc s a).trans (onlyChanges_stack _ l)

/-- The frame of a block load: the registers from V[i] on, as many as there are bytes. -/
theorem onlyChanges_setRegs (s : State) (i : Nat) (bytes : List Byte) (regs : List Reg)
    (h : ∀ r : Reg, i ≤ r.val → r.val - i < bytes.length → r ∈ regs) :
    OnlyChanges regs [] [] s (s.setRegs i bytes) := by
  obtain ⟨v, hv⟩ := setRegs_eq bytes s i
  refine { regs_kept := fun r hr => ?_, mem_kept := ?_, parts_kept := ?_, config_kept := ?_, schedule_kept := ?_ }
  · rw [reg_setRegs, dif_neg fun hin => hr (h r hin.1 hin.2)]
  all_goals rw [hv]
  · exact fun _ _ => rfl
  · intro p _
    cases p <;> simp [Part.kept]

/-! ### The call stack (R140, R142) -/

theorem exec_call_of_full {s : State} (nnn : Imm12) (h : s.config.stackDepth ≤ s.stack.length) :
    exec (.call nnn) s = .next (faultState .stackOverflow s) :=
  orRaise_of_error _ _ (push_error h)

theorem exec_ret_of_empty {s : State} (h : s.stack = []) : exec .ret s = .next (faultState .stackUnderflow s) :=
  orRaise_of_error _ _ (pop_error h)

/-- Settles O20: the entry pushed is `PC - 2`, and PC becomes the operand widened with zeros. -/
theorem callPushesItsOwnAddress : Obligations.CallPushesItsOwnAddress := fun s nnn hroom =>
  ⟨_, exec_call_of_room nnn hroom, rfl, zextImm12_toNat nnn, onlyChanges_pc_stack s _ _⟩

/-- Settles O21: the push is refused before PC is written. -/
theorem callOnFullStackFaults : Obligations.CallOnFullStackFaults := fun s nnn hfull =>
  ⟨_, exec_call_of_full nnn hfull, rfl, rfl, rfl, onlyChanges_faultState _ s⟩

/-- Settles O22: the entry popped is the address of the CALL, and PC goes 2 past it. -/
theorem returnGoesPastTheCall : Obligations.ReturnGoesPastTheCall := fun s _ _ hentry =>
  ⟨_, exec_ret_of_entry hentry, rfl, rfl, onlyChanges_pc_stack s _ _⟩

/-- Settles O23: there is no entry to pop, and PC is not written. -/
theorem returnOnEmptyStackFaults : Obligations.ReturnOnEmptyStackFaults := fun s hempty =>
  ⟨_, exec_ret_of_empty hempty, rfl, rfl, rfl, onlyChanges_faultState _ s⟩

/-! ### The key skips (R230 to R232) -/

/-- The key test as the rules word it: the byte is the code of a pressed key. -/
theorem keyDown_iff (s : State) (b : Byte) :
    keyDown s b = true ↔ ∃ k : Key, b.toNat = k.val ∧ s.keys.get k = true := by
  unfold keyDown
  split
  next hcode =>
    constructor
    · exact fun hkey => ⟨⟨b.toNat, hcode⟩, rfl, hkey⟩
    · rintro ⟨k, hk, hkey⟩
      obtain rfl : ⟨b.toNat, hcode⟩ = k := Fin.ext hk
      exact hkey
  next hnone =>
    constructor
    · intro h
      cases h
    · rintro ⟨k, hk, -⟩
      exact absurd (hk ▸ k.isLt) hnone

/-- Settles O38: both skip on the same test, ExA1 on its negation. -/
theorem keySkips : Obligations.KeySkips := by
  intro s x
  refine ⟨⟨_, rfl, ?_, onlyChanges_skipIf _ s⟩, ⟨_, rfl, ?_, onlyChanges_skipIf _ s⟩⟩
  · simp only [skipIf_pc, keyDown_iff]
  · simp only [skipIf_pc, Bool.not_eq_true', ← Bool.not_eq_true, keyDown_iff, ite_not]

/-! ### The index register (R192) -/

/-- Settles O28: the sum of two 16-bit words is the sum modulo 65536, and I alone is written. -/
theorem addToIndexSetsNoFlag : Obligations.AddToIndexSetsNoFlag := by
  intro s x
  refine ⟨_, rfl, ?_, onlyChanges_index s _⟩
  calc (s.index + zextByte (s.reg x)).toNat
      = (s.index.toNat + (zextByte (s.reg x)).toNat) % 65536 := BitVec.toNat_add _ _
    _ = (s.index.toNat + (s.reg x).toNat) % 65536 := by rw [zextByte_toNat]

/-! ### The BCD converter (R195) -/

theorem exec_ldBVx_of_inRange {s : State} {x : Reg} (h : dataAddr s 2 ≤ 0xFFF) :
    exec (.ldBVx x) s = .next { s with mem := Memory.writeBytes s.mem (dataAddr s 0) (bcdDigits (s.reg x)) } :=
  orRaise_of_ok s id (writeBlock_ok (.inr h))

theorem read_writeBytes_bcdDigits (m : Memory) (base : Nat) (b : Byte) :
    (Memory.read (Memory.writeBytes m base (bcdDigits b)) base).toNat = b.toNat / 100 ∧
    (Memory.read (Memory.writeBytes m base (bcdDigits b)) (base + 1)).toNat = b.toNat / 10 % 10 ∧
    (Memory.read (Memory.writeBytes m base (bcdDigits b)) (base + 2)).toNat = b.toNat % 10 := by
  have hb := b.isLt
  have hlen : ∀ k < 3, k < (bcdDigits b).length := fun _ hk => hk
  have hhundreds : Memory.read (Memory.writeBytes m base (bcdDigits b)) base = BitVec.ofNat 8 (b.toNat / 100) :=
    Memory.read_writeBytes_inside (bcdDigits b) m base 0 (hlen 0 (by decide))
  have htens : Memory.read (Memory.writeBytes m base (bcdDigits b)) (base + 1) = BitVec.ofNat 8 (b.toNat / 10 % 10) :=
    Memory.read_writeBytes_inside (bcdDigits b) m base 1 (hlen 1 (by decide))
  have hunits : Memory.read (Memory.writeBytes m base (bcdDigits b)) (base + 2) = BitVec.ofNat 8 (b.toNat % 10) :=
    Memory.read_writeBytes_inside (bcdDigits b) m base 2 (hlen 2 (by decide))
  rw [hhundreds, htens, hunits, BitVec.toNat_ofNat, BitVec.toNat_ofNat, BitVec.toNat_ofNat]
  omega

/-- Settles O29: the three digits are read back where they were stored, and a byte is the sum of its digits' values. -/
theorem bcdStoresThreeDigits : Obligations.BcdStoresThreeDigits := by
  intro s x hrange
  obtain ⟨hhundreds, htens, hunits⟩ := read_writeBytes_bcdDigits s.mem (dataAddr s 0) (s.reg x)
  refine ⟨_, exec_ldBVx_of_inRange hrange, hhundreds, htens, hunits, ?_, onlyChanges_writeBytes s _ (bcdDigits (s.reg x))⟩
  rw [dataAddr_eq_add s 1, dataAddr_eq_add s 2, hhundreds, htens, hunits]
  omega

/-! ### The block transfers (R196, R197) -/

/-- Settles O30: the block's bytes are the registers in order, as many as its addresses. -/
theorem blockStoreCopiesRegisters : Obligations.BlockStoreCopiesRegisters := by
  intro s x hrange
  refine ⟨_, exec_ldMemVx_of_inRange hrange, fun k hk => read_writeBytes_regs s s.mem hk, ?_⟩
  have hframe := onlyChanges_writeBytes s (dataAddr s 0) (s.regs (blockCount x))
  rwa [length_blockRegs] at hframe

/-- Settles O31: V[k] gets the byte at its own offset, and the load reaches V[0] to V[x] alone. -/
theorem blockLoadCopiesMemory : Obligations.BlockLoadCopiesMemory := by
  intro s x hrange
  refine ⟨_, exec_ldVxMem_of_inRange hrange, fun k hk => reg_setRegs_readBytes s s.mem (dataAddr s 0) hk,
    onlyChanges_setRegs s 0 _ _ fun r _ hr => ?_⟩
  rw [Memory.length_readBytes] at hr
  exact List.mem_filter.mpr ⟨List.mem_finRange r, decide_eq_true (Nat.le_of_lt_succ hr)⟩

/-! ### Accesses out of range (R68, R276) -/

/-- The error of an access that begins at I and reaches past 0xFFF (R261). -/
abbrev rangeFault (s : State) : FatalError := .memoryOutOfBounds (max s.index.toNat 0x1000)

theorem exec_drwVxVyN_of_outOfRange {s : State} {x y : Reg} {n : Nibble} (hn : 0 < n.val)
    (h : 0xFFF < dataAddr s (n.val - 1)) : exec (.drwVxVyN x y n) s = .next (faultState (rangeFault s) s) :=
  orRaise_of_error s _ (readBlock_error hn (by rw [dataAddr] at *; omega))

theorem exec_ldBVx_of_outOfRange {s : State} {x : Reg} (h : 0xFFF < dataAddr s 2) :
    exec (.ldBVx x) s = .next (faultState (rangeFault s) s) :=
  orRaise_of_error s _ (writeBlock_error (Nat.succ_pos 2) h)

theorem exec_ldMemVx_of_outOfRange {s : State} {x : Reg} (h : 0xFFF < dataAddr s x.val) :
    exec (.ldMemVx x) s = .next (faultState (rangeFault s) s) := by
  refine orRaise_of_error s id (writeBlock_error ?_ ?_) <;> rw [length_blockRegs]
  · exact Nat.succ_pos _
  · exact h

theorem exec_ldVxMem_of_outOfRange {s : State} {x : Reg} (h : 0xFFF < dataAddr s x.val) :
    exec (.ldVxMem x) s = .next (faultState (rangeFault s) s) :=
  orRaise_of_error s _ (readBlock_error (Nat.succ_pos _) h)

/-- The last offset from I that an instruction accesses, when it accesses memory at I (R195 to R197, R212). -/
def AccessesUpTo (i : Instr) (last : Nat) : Prop :=
  (∃ x y n, i = .drwVxVyN x y n ∧ 0 < n.val ∧ last = n.val - 1) ∨ (∃ x, i = .ldBVx x ∧ last = 2) ∨
    (∃ x, i = .ldMemVx x ∧ last = x.val) ∨ (∃ x, i = .ldVxMem x ∧ last = x.val)

theorem exec_of_outOfRange {s : State} {i : Instr} {last : Nat} (hi : AccessesUpTo i last)
    (h : 0xFFF < dataAddr s last) : exec i s = .next (faultState (rangeFault s) s) := by
  obtain ⟨x, y, n, rfl, hn, rfl⟩ | ⟨x, rfl, rfl⟩ | ⟨x, rfl, rfl⟩ | ⟨x, rfl, rfl⟩ := hi
  · exact exec_drwVxVyN_of_outOfRange hn h
  · exact exec_ldBVx_of_outOfRange h
  · exact exec_ldMemVx_of_outOfRange h
  · exact exec_ldVxMem_of_outOfRange h

/-- Settles O32: the range is checked before anything is written, so the answer is the fault state. -/
theorem outOfRangeAccessCommitsOnlyTheFault : Obligations.OutOfRangeAccessCommitsOnlyTheFault := fun s _ _ hi hout =>
  ⟨_, exec_of_outOfRange hi hout, rfl, rfl, onlyChanges_faultState _ s⟩

end Sys2Proof.Machine
end

section
/-! PROOFS. The arithmetic that writes V[F] (spec/42_alu.md R162, R163, R173 to R177) and the random byte (R180): each
answer is two register writes in a fixed order, so what is read back is a fact about `setReg` and a fact about bytes. -/

namespace Sys2Proof.Machine

/-! ### Two register writes -/

theorem onlyChanges_setReg_setReg (s : State) (x y : Reg) (a b : Byte) :
    OnlyChanges [x, y] [] [] s ((s.setReg x a).setReg y b) :=
  (onlyChanges_setReg s x a).trans (onlyChanges_setReg _ y b)

/-- The same frame for the writes in the other order. -/
theorem onlyChanges_setReg_setReg_swap (s : State) (x y : Reg) (a b : Byte) :
    OnlyChanges [x, y] [] [] s ((s.setReg y b).setReg x a) :=
  (onlyChanges_setReg_setReg s y x b a).mono (List.Perm.swap x y []).subset (List.Subset.refl _) (List.Subset.refl _)

theorem reg_setReg_setReg_first (s : State) {x y : Reg} (a b : Byte) (h : x ≠ y) :
    ((s.setReg x a).setReg y b).reg x = a := by
  rw [reg_setReg_other _ b h, reg_setReg_same]

/-! ### Flags as numbers (R162) -/

theorem flagByte_decide (p : Prop) [Decidable p] : flagByte (decide p) = if p then 1 else 0 := by
  by_cases h : p <;> simp [flagByte, h]

theorem flagByte_toNat (b : Bool) : (flagByte b).toNat = b.toNat := by
  cases b <;> rfl

/-- The bit shifted out to the right is the parity (R175). -/
theorem shiftedOutRight_toNat (a : Byte) : (shiftedOutRight a).toNat = a.toNat % 2 := by
  rw [shiftedOutRight, BitVec.getLsbD, Nat.toNat_testBit, pow_zero, Nat.div_one]

/-- The bit shifted out to the left is the top half (R177). -/
theorem shiftedOutLeft_toNat (a : Byte) : (shiftedOutLeft a).toNat = a.toNat / 128 := by
  have ha := a.isLt
  rw [shiftedOutLeft, BitVec.getLsbD, Nat.toNat_testBit]
  omega

/-! ### Results modulo 256 (R160) -/

theorem byte_sub_toNat (a b : Byte) : (a - b).toNat = (a.toNat + 256 - b.toNat) % 256 := by
  have hb := b.isLt
  rw [BitVec.toNat_sub]
  omega

theorem byte_shiftRight_one_toNat (a : Byte) : (a >>> 1).toNat = a.toNat / 2 := by
  rw [BitVec.toNat_ushiftRight, Nat.shiftRight_eq_div_pow, pow_one]

theorem byte_shiftLeft_one_toNat (a : Byte) : (a <<< 1).toNat = a.toNat * 2 % 256 := by
  rw [BitVec.toNat_shiftLeft, Nat.shiftLeft_eq, pow_one]

/-! ### The statements of the family -/

/-- Settles O15: the carry is written last, so it is what V[F] holds; V[x] holds the sum where it is another register. -/
theorem addSetsCarry : Obligations.AddSetsCarry := by
  intro s x y
  refine ⟨_, rfl, fun hx => ?_, ?_, onlyChanges_setReg_setReg s x regF _ _⟩
  · rw [reg_setReg_setReg_first s _ _ hx]
    exact BitVec.toNat_add _ _
  · rw [reg_setReg_same]
    exact flagByte_decide _

/-- Settles O16: the difference is written last, so it is what V[x] holds; V[F] holds NOT borrow where it is another
register. -/
theorem subtractionsSetNotBorrow : Obligations.SubtractionsSetNotBorrow := by
  have hflag (s : State) (x : Reg) (a b d : Byte) (hx : x ≠ regF) :
      ((s.setReg regF (flagByte (notBorrow a b))).setReg x d).reg regF = if a.toNat ≥ b.toNat then 1 else 0 :=
    (reg_setReg_setReg_first s _ d hx.symm).trans (flagByte_decide _)
  refine fun s x y => ⟨⟨_, rfl, ?_, hflag s x _ _ _, onlyChanges_setReg_setReg_swap s x regF _ _⟩,
    ⟨_, rfl, ?_, hflag s x _ _ _, onlyChanges_setReg_setReg_swap s x regF _ _⟩⟩
  · rw [reg_setReg_same, byte_sub_toNat]
  · rw [reg_setReg_same, byte_sub_toNat]

/-- Settles O17: the shifted value is written last, so it is what V[x] holds; V[F] holds the bit where it is another
register. -/
theorem shiftsSetTheBitShiftedOut : Obligations.ShiftsSetTheBitShiftedOut := by
  refine fun s x y => ⟨⟨_, rfl, ?_, fun hx => ?_, onlyChanges_setReg_setReg_swap s x regF _ _⟩,
    ⟨_, rfl, ?_, fun hx => ?_, onlyChanges_setReg_setReg_swap s x regF _ _⟩⟩
  · rw [reg_setReg_same, byte_shiftRight_one_toNat]
  · rw [reg_setReg_setReg_first s _ _ hx.symm, flagByte_toNat, shiftedOutRight_toNat]
  · rw [reg_setReg_same, byte_shiftLeft_one_toNat]
  · rw [reg_setReg_setReg_first s _ _ hx.symm, flagByte_toNat, shiftedOutLeft_toNat]

/-! ### The random byte (R180) -/

theorem onlyChanges_random (s : State) (source : List Byte) (k : Nat) :
    OnlyChanges [] [] [.random] s { s with byteSource := source, draws := k } :=
  onlyChanges_part rfl rfl rfl rfl fun p => by cases p <;> simp [Part.kept]

theorem onlyChanges_drawByte (s : State) : OnlyChanges [] [] [.random] s (drawByte s).2 := by
  obtain ⟨source, k, hdraw⟩ := drawByte_eq s
  exact hdraw ▸ onlyChanges_random s source k

theorem drawByte_of_supplied {s : State} {b : Byte} {rest : List Byte} (h : s.byteSource = b :: rest) :
    drawByte s = (b, { s with byteSource := rest }) := by
  rw [drawByte, h]

theorem drawByte_of_free {s : State} (h : s.byteSource = []) :
    drawByte s = (Config.randomByte s.draws, { s with draws := s.draws + 1 }) := by
  rw [drawByte, h]

theorem exec_rndVxNn (x : Reg) (nn : Byte) (s : State) :
    exec (.rndVxNn x nn) s = .next ((drawByte s).2.setReg x ((drawByte s).1 &&& nn)) := rfl

/-- Settles O18: V[x] is the byte drawn and nn, and the draw moves the random source by one. -/
theorem randomByteIsMasked : Obligations.RandomByteIsMasked := by
  intro s x nn
  refine ⟨_, exec_rndVxNn x nn s, ?_, fun b rest hsupplied => ?_, fun hfree => ?_,
    (onlyChanges_drawByte s).trans (onlyChanges_setReg _ x _)⟩
  · rw [reg_setReg_same, BitVec.and_assoc, BitVec.and_not_self]
    exact BitVec.and_zero
  · rw [drawByte_of_supplied hsupplied]
    exact ⟨reg_setReg_same _ x _, rfl, rfl⟩
  · rw [drawByte_of_free hfree]
    exact ⟨reg_setReg_same _ x _, hfree, rfl⟩

end Sys2Proof.Machine
end

section
/-! PROOFS. Drawing a sprite (spec/44_display.md R212 to R217): the cells the drawing toggles are the cells the rules say the
sprite covers, each axis wrapping on its own; the buffer, the flag and the law of two draws follow. -/

namespace Sys2Proof.Machine

/-! ### The cells toggled are the cells covered (R213, R214) -/

/-- A cell is the one under a sprite position iff the position is its wrapped distance from the origin, axis by axis. -/
theorem pixelIndex_eq_spriteCell_iff {x0 y0 c r col row : Nat} (hx : x0 < 64) (hy : y0 < 32) (hcol : col < 64)
    (hrow : row < 32) (hc : c < 64) (hr : r < 32) :
    pixelIndex col row = spriteCell x0 y0 c r ↔ c = (col + 64 - x0) % 64 ∧ r = (row + 32 - y0) % 32 := by
  rw [spriteCell, pixelIndex_inj hcol (Nat.mod_lt _ (by decide))]
  omega

/-- The bytes of the sprite of Dxyn: `n` of them, from I on. -/
def spriteRows (s : State) (n : Nibble) : List Byte := Memory.readBytes s.mem (dataAddr s 0) n.val

theorem length_spriteRows (s : State) (n : Nibble) : (spriteRows s n).length = n.val := Memory.length_readBytes ..

theorem length_spriteRows_le (s : State) (n : Nibble) : (spriteRows s n).length ≤ 32 := by
  rw [length_spriteRows]
  omega

/-- The cells that Dxyn toggles. -/
def drawnCells (s : State) (x y : Reg) (n : Nibble) : List Nat :=
  spriteCells (originCol (s.reg x)) (originRow (s.reg y)) 0 (spriteRows s n)

/-- The list the drawing walks is what the rules call covered (R213, R214). -/
theorem pixelIndex_mem_drawnCells {s : State} {x y : Reg} {n : Nibble} {col row : Nat} (hcol : col < 64)
    (hrow : row < 32) : pixelIndex col row ∈ drawnCells s x y n ↔ spriteCovers s x y n col row := by
  have hn := n.isLt
  have hx : originCol (s.reg x) < 64 := Nat.mod_lt _ (by decide)
  have hy : originRow (s.reg y) < 32 := Nat.mod_lt _ (by decide)
  rw [drawnCells, mem_spriteCells, length_spriteRows]
  constructor
  · rintro ⟨j, hj, c, hc, hbit, hcell⟩
    rw [Nat.zero_add] at hcell
    obtain ⟨rfl, rfl⟩ := (pixelIndex_eq_spriteCell_iff hx hy hcol hrow (by omega) (by omega)).mp hcell
    rw [spriteRows, Memory.getD_readBytes _ _ _ _ hj] at hbit
    exact ⟨hc, hj, hbit⟩
  · rintro ⟨hc, hr, hbit⟩
    refine ⟨_, hr, _, hc, ?_, ?_⟩
    · rw [spriteRows, Memory.getD_readBytes _ _ _ _ hr]
      exact hbit
    · rw [Nat.zero_add]
      exact (pixelIndex_eq_spriteCell_iff hx hy hcol hrow (by omega) (by omega)).mpr ⟨rfl, rfl⟩

/-- Every cell has a column and a row. -/
theorem exists_pixelIndex_eq {k : Nat} (hk : k < 2048) : ∃ col row, col < 64 ∧ row < 32 ∧ pixelIndex col row = k :=
  ⟨k % 64, k / 64, by omega, by omega, by rw [pixelIndex]; omega⟩

/-- A property of some toggled cell, by column and row. -/
theorem exists_drawnCells_iff {s : State} {x y : Reg} {n : Nibble} (P : Nat → Prop) :
    (∃ k ∈ drawnCells s x y n, P k) ↔
      ∃ col row, col < 64 ∧ row < 32 ∧ spriteCovers s x y n col row ∧ P (pixelIndex col row) := by
  constructor
  · rintro ⟨k, hk, hP⟩
    obtain ⟨col, row, hcol, hrow, rfl⟩ := exists_pixelIndex_eq (spriteCells_lt hk)
    exact ⟨col, row, hcol, hrow, (pixelIndex_mem_drawnCells hcol hrow).mp hk, hP⟩
  · rintro ⟨col, row, hcol, hrow, hcovers, hP⟩
    exact ⟨_, (pixelIndex_mem_drawnCells hcol hrow).mpr hcovers, hP⟩

/-! ### What Dxyn answers in range (R212, R215) -/

/-- The new buffer and the collision bit of Dxyn. -/
def drawing (s : State) (x y : Reg) (n : Nibble) : Drawing := drawSprite (s.reg x) (s.reg y) (spriteRows s n) s.pix

/-- The state after a Dxyn in range. -/
def drawnState (s : State) (x y : Reg) (n : Nibble) : State :=
  { ({ s with pix := (drawing s x y n).1 }).setReg regF (flagByte (drawing s x y n).2) with redraw := true }

theorem exec_drwVxVyN_of_inRange {s : State} {x y : Reg} {n : Nibble} (h : SpriteInRange s n) :
    exec (.drwVxVyN x y n) s = .next (drawnState s x y n) := by
  refine orRaise_of_ok s _ (readBlock_ok ?_)
  rw [SpriteInRange, dataAddr] at h
  rw [dataAddr]
  omega

theorem cell_drawing (s : State) (x y : Reg) (n : Nibble) (j : Nat) :
    Pixels.cell (drawing s x y n).1 j = (Pixels.cell s.pix j ^^ decide (j ∈ drawnCells s x y n)) :=
  cell_drawSprite _ _ _ _ (length_spriteRows_le s n) j

theorem collision_drawing (s : State) (x y : Reg) (n : Nibble) :
    (drawing s x y n).2 = true ↔ ∃ k ∈ drawnCells s x y n, Pixels.cell s.pix k = true := by
  rw [drawing, collision_drawSprite _ _ _ _ (length_spriteRows_le s n), List.any_eq_true]
  rfl

theorem reg_drawnState_regF (s : State) (x y : Reg) (n : Nibble) :
    (drawnState s x y n).reg regF = flagByte (drawing s x y n).2 :=
  reg_setReg_same _ regF _

theorem flagByte_eq_one_iff (b : Bool) : flagByte b = 1 ↔ b = true := by
  cases b <;> decide

theorem onlyChanges_drawnState (s : State) (x y : Reg) (n : Nibble) :
    OnlyChanges [regF] [] [.pix, .redraw] s (drawnState s x y n) :=
  (onlyChanges_setReg s regF (flagByte (drawing s x y n).2)).trans (onlyChanges_pix_redraw _ (drawing s x y n).1 true)

/-- Settles O35: the cells toggled are the covered ones, each once. -/
theorem drawXorsTheWrappedSprite : Obligations.DrawXorsTheWrappedSprite := by
  intro s x y n hrange
  refine ⟨_, exec_drwVxVyN_of_inRange hrange, fun col row hcol hrow => ?_, rfl, onlyChanges_drawnState s x y n⟩
  have hcell : Pixels.cell (drawnState s x y n).pix (pixelIndex col row) = _ := cell_drawing s x y n _
  have hmem := pixelIndex_mem_drawnCells (s := s) (x := x) (y := y) (n := n) hcol hrow
  constructor
  · intro hcovers
    rw [hcell, decide_eq_true (hmem.mpr hcovers), Bool.xor_true]
  · intro hbare
    rw [hcell, decide_eq_false fun hin => hbare (hmem.mp hin), Bool.xor_false]

/-- Settles O36: the collision bit says whether one of the covered cells was set. -/
theorem drawFlagIsCollision : Obligations.DrawFlagIsCollision := by
  intro s x y n hrange
  have hcollision := (collision_drawing s x y n).trans (exists_drawnCells_iff _)
  refine ⟨_, exec_drwVxVyN_of_inRange hrange, fun hset => ?_, fun hclear => ?_⟩ <;> rw [reg_drawnState_regF]
  · rw [hcollision.mpr hset]
    rfl
  · have hnone : (drawing s x y n).2 = false := by
      rw [Bool.eq_false_iff, Ne, hcollision]
      rintro ⟨col, row, hcol, hrow, hcovers, hset⟩
      exact Bool.false_ne_true ((hclear col row hcol hrow hcovers).symm.trans hset)
    rw [hnone]
    rfl

/-! ### Two draws (R216) -/

theorem Memory.readBytes_congr {m m' : Memory} (h : ∀ a, Memory.read m' a = Memory.read m a) (base count : Nat) :
    Memory.readBytes m' base count = Memory.readBytes m base count := by
  induction count generalizing base with
  | zero => rfl
  | succ count ih => rw [Memory.readBytes, Memory.readBytes, h, ih]

theorem drawnCells_congr {s u : State} {x y : Reg} {n : Nibble} (hindex : u.index = s.index)
    (hmem : ∀ a, Memory.read u.mem a = Memory.read s.mem a) (hx : u.reg x = s.reg x) (hy : u.reg y = s.reg y) :
    drawnCells u x y n = drawnCells s x y n := by
  rw [drawnCells, spriteRows, hx, hy, dataAddr_of_index_eq hindex, Memory.readBytes_congr hmem]
  rfl

theorem spriteInRange_of_index_eq {s u : State} {n : Nibble} (hindex : u.index = s.index) (h : SpriteInRange s n) :
    SpriteInRange u n := by
  rwa [SpriteInRange, dataAddr_of_index_eq hindex]

/-- Settles O37: the second draw toggles the same cells, so it undoes the first; each covered cell is then the opposite of
what it was before the first. -/
theorem drawTwiceRestoresTheBuffer : Obligations.DrawTwiceRestoresTheBuffer := by
  intro s x y n hrange
  refine ⟨_, exec_drwVxVyN_of_inRange hrange, fun u hpix hindex hmem hx hy => ?_⟩
  have hcells : drawnCells u x y n = drawnCells s x y n := drawnCells_congr hindex hmem hx hy
  have hfirst (k : Nat) : Pixels.cell u.pix k = (Pixels.cell s.pix k ^^ decide (k ∈ drawnCells s x y n)) := by
    rw [hpix]
    exact cell_drawing s x y n k
  refine ⟨_, exec_drwVxVyN_of_inRange (spriteInRange_of_index_eq hindex hrange), Pixels.ext_cells fun k _ => ?_, ?_⟩
  · calc Pixels.cell (drawing u x y n).1 k
        = (Pixels.cell u.pix k ^^ decide (k ∈ drawnCells s x y n)) := by rw [cell_drawing, hcells]
      _ = Pixels.cell s.pix k := by rw [hfirst, Bool.xor_assoc, Bool.xor_self, Bool.xor_false]
  · rw [reg_drawnState_regF, flagByte_eq_one_iff, collision_drawing, hcells,
      ← exists_drawnCells_iff (fun k => Pixels.cell s.pix k = false)]
    refine exists_congr fun k => and_congr_right fun hk => ?_
    rw [hfirst, decide_eq_true hk, Bool.xor_true, Bool.not_eq_true']

end Sys2Proof.Machine
end

section
/-! PROOFS. The cycle and the other transactions as steps (spec/40_cycle.md R120 to R126, spec/45_keypad_timers.md R250,
spec/70_reset_and_hazards.md R300 to R302), and that every step answers a next state. -/

namespace Sys2Proof.Machine

/-! ### The word a cycle executes (R125, R126) -/

theorem executeWord_of_decodes {w : Word} {i : Instr} (s : State) (h : decodeWord w = .ok i) :
    executeWord w s = exec i s := by
  rw [executeWord, h]

theorem executeWord_of_unknown {w : Word} {r : DecodeReject} (s : State) (h : decodeWord w = .error r) :
    executeWord w s = reportUnknown w s := by
  rw [executeWord, h]

theorem decodeWord_of_not_wellFormed {w : Word} (h : Word.wellFormed w = false) :
    decodeWord w = .error (.unknownOpcode w) := by
  obtain ⟨hwf, -⟩ | ⟨-, hunknown⟩ := decodingIsTotal w
  · cases hwf.symm.trans h
  · exact hunknown

theorem onlyChanges_lastOpcode (s : State) (w : Word) : OnlyChanges [] [] [.lastOpcode] s { s with lastOpcode := w } :=
  onlyChanges_part rfl rfl rfl rfl fun p => by cases p <;> simp [Part.kept]

/-- Settles O7: the two bytes at PC are the word the cycle fetches, and it decodes. -/
theorem stepRunsDecodedInstruction : Obligations.StepRunsDecodedInstruction := fun s _ hnext hrun hpc hdecode =>
  (step_executes ⟨hnext, hrun, hpc⟩).trans (executeWord_of_decodes (afterFetch s) hdecode)

/-- Settles O8: the word is fetched, so PC and the latch move, and its execution is the report alone. -/
theorem unknownWordIsReportedNoOp : Obligations.UnknownWordIsReportedNoOp := fun _ hexec hwf =>
  ⟨_, (step_executes hexec).trans (executeWord_of_unknown _ (decodeWord_of_not_wellFormed hwf)), rfl, rfl, rfl, rfl,
    hexec.2.1, ((onlyChanges_pc _ _).trans (onlyChanges_lastOpcode _ _)).trans (onlyChanges_report _ _)⟩

/-- Settles O9: of the four ways of a step only the gated cycle is a cycle without a running CPU. -/
theorem gatedCycleHasNoEffect : Obligations.GatedCycleHasNoEffect := by
  intro s hnext hstatus
  obtain ⟨hother, -⟩ | ⟨-, -, hs⟩ | ⟨-, hrun, -⟩ | ⟨⟨-, hrun, -⟩, -⟩ := step_cases s
  · exact absurd hnext hother
  · exact ⟨_, hs, rfl, onlyChanges_report _ none⟩
  · exact absurd hrun hstatus
  · exact absurd hrun hstatus

/-- Settles O10: of the four ways of a step only the faulting fetch is a cycle of a running CPU whose PC is out of range. -/
theorem fetchOutOfRangeFaults : Obligations.FetchOutOfRangeFaults := by
  intro s hnext hrun hout
  obtain ⟨hother, -⟩ | ⟨-, hstatus, -⟩ | ⟨-, -, -, hs⟩ | ⟨⟨-, -, hpc⟩, -⟩ := step_cases s
  · exact absurd hnext hother
  · exact absurd hrun hstatus
  · exact ⟨_, hs, rfl, rfl, rfl, (onlyChanges_status _ _).trans (onlyChanges_report _ _)⟩
  · exact absurd hout (Nat.not_lt_of_le hpc)

/-! ### Every step answers a next state (log 5) -/

theorem orRaise_answers_next {α : Type} (s : State) (r : Except FatalError α) (k : α → State) :
    ∃ t, orRaise s r k = .next t := by
  obtain ⟨a, -, h⟩ | ⟨e, -, h⟩ := orRaise_cases s r k
  · exact ⟨_, h⟩
  · exact ⟨_, h⟩

theorem exec_answers_next (i : Instr) (s : State) : ∃ t, exec i s = .next t := by
  cases i
  case ret | call | drwVxVyN | ldBVx | ldMemVx | ldVxMem => exact orRaise_answers_next ..
  -- the other 28 have one answer
  all_goals exact ⟨_, rfl⟩

theorem executeWord_answers_next (w : Word) (s : State) : ∃ t, executeWord w s = .next t := by
  unfold executeWord
  split
  · exact exec_answers_next ..
  · exact ⟨_, rfl⟩

theorem perform_answers_next {a : Transaction} (s : State) (h : a ≠ .cycle) : ∃ t, perform a s = .next t := by
  cases a with
  | cycle => exact absurd rfl h
  | _ => exact ⟨_, rfl⟩

/-- Settles O11: each of the four ways of a step answers a next state. -/
theorem stepAlwaysAnswersNext : Obligations.StepAlwaysAnswersNext := by
  intro s
  obtain ⟨hother, hs⟩ | ⟨-, -, hs⟩ | ⟨-, -, -, hs⟩ | ⟨-, hs⟩ := step_cases s <;> rw [hs]
  · exact perform_answers_next _ hother
  · exact ⟨_, rfl⟩
  · exact ⟨_, rfl⟩
  · exact executeWord_answers_next ..

/-! ### The timer tick (R250) -/

/-- Natural subtraction is held at 0, as the countdown is. -/
theorem countDown_toNat (t : Byte) : (countDown t).toNat = t.toNat - 1 := by
  unfold countDown
  split
  next h => rw [h]; rfl
  next h => bv_omega

/-- Settles O41: the step is the countdown of both timers. -/
theorem timerTickCountsDown : Obligations.TimerTickCountsDown := fun s hn =>
  ⟨_, step_of_nextTransaction hn, countDown_toNat s.dt, countDown_toNat s.st, rfl,
    ((onlyChanges_dt _ _).trans (onlyChanges_st _ _)).trans (onlyChanges_report _ none)⟩

/-! ### Reset (R300 to R302, R52) -/

/-- Settles O46: the step is `resetCore`, which reads of the state before only the fields it keeps. -/
theorem resetForgetsEverything : Obligations.ResetForgetsEverything := fun _ hn => step_of_nextTransaction hn

/-- Memory that lists nothing reads 0 past the font (R50). -/
theorem unlistedByte_of_ge {a : Nat} (h : 0x50 ≤ a) : unlistedByte a = 0 := if_neg (Nat.not_lt_of_le h)

/-- Settles O47: each field of the reset state is the value written, and memory lists nothing. -/
theorem resetValues : Obligations.ResetValues :=
  ⟨by decide, rfl, rfl, rfl, rfl, rfl, Pixels.cell_blank, by decide, rfl, rfl, rfl, fun _ => unlistedByte_of_ge, rfl⟩

end Sys2Proof.Machine
end

section
/-! PROOFS. What a step can do, said once (spec/00_scope.md R15, spec/40_cycle.md R120): the kinds of effect an instruction
can have and which instruction has which, the same for the transactions other than the cycle, and the step made of the two.
The invariant and the rules of the whole machine (R38, R42, R43, R65, R67, R149, R219, R267, R278) are read off them. -/

namespace Sys2Proof.Machine

/-! ### The effects of an instruction -/

/-- The fatal errors an instruction can raise, each on its condition (R267). -/
inductive Raises (s : State) : Instr → FatalError → Prop where
  | underflow (hempty : s.stack = []) : Raises s .ret .stackUnderflow
  | overflow (nnn : Imm12) (hfull : s.config.stackDepth ≤ s.stack.length) : Raises s (.call nnn) .stackOverflow
  | range {i : Instr} {last : Nat} (hi : AccessesUpTo i last) (hout : 0xFFF < dataAddr s last) : Raises s i (rangeFault s)

/-- The effects of an instruction, by kind: which pieces of state it writes, and which instructions write a piece that
few of them do. -/
inductive Effect (s : State) : Instr → State → Prop where
  /-- V registers, I and the random source: many instructions -/
  | data (i : Instr) (v : Vector Byte 16) (index : Word) (source : List Byte) (k : Nat) :
      Effect s i { s with v := v, index := index, byteSource := source, draws := k }
  | skip (i : Instr) (c : Bool) : Effect s i { s with pc := if c then s.pc + 2 else s.pc }
  /-- a jump goes at most to 0xFFF + 0xFF (R143) -/
  | jump (i : Instr) (a : Word) (ha : a.toNat ≤ 0x10FE) : Effect s i { s with pc := a }
  | call (nnn : Imm12) (hroom : s.stack.length < s.config.stackDepth) :
      Effect s (.call nnn) { s with stack := (s.pc - 2) :: s.stack, pc := zextImm12 nnn }
  | ret (a : Word) (rest : List Word) (hentry : s.stack = a :: rest) : Effect s .ret { s with stack := rest, pc := a + 2 }
  | clear : Effect s .cls { s with pix := blankPixels, redraw := true }
  | draw (x y : Reg) (n : Nibble) (v : Vector Byte 16) (p : Pixels) :
      Effect s (.drwVxVyN x y n) { s with v := v, pix := p, redraw := true }
  | font (x : Reg) (a : Word) : Effect s (.ldFVx x) { s with index := a, redraw := true }
  | setDT (x : Reg) (b : Byte) : Effect s (.ldDTVx x) { s with dt := b }
  | setST (x : Reg) (b : Byte) : Effect s (.ldSTVx x) { s with st := b }
  | wait (x : Reg) : Effect s (.ldVxK x) { s with status := .waitingForKey x }
  | bcd (x : Reg) (hrange : dataAddr s 2 ≤ 0xFFF) :
      Effect s (.ldBVx x) { s with mem := Memory.writeBytes s.mem (dataAddr s 0) (bcdDigits (s.reg x)) }
  | store (x : Reg) (hrange : dataAddr s x.val ≤ 0xFFF) :
      Effect s (.ldMemVx x) { s with mem := Memory.writeBytes s.mem (dataAddr s 0) (s.regs (blockCount x)) }
  | fault (i : Instr) (e : FatalError) (hraises : Raises s i e) : Effect s i (faultState e s)

theorem Effect.of_skipIf {s : State} (i : Instr) (c : Bool) : Effect s i (skipIf c s) :=
  skipIf_eq c s ▸ .skip i c

theorem Effect.of_setReg {s : State} (i : Instr) (x : Reg) (b : Byte) : Effect s i (s.setReg x b) :=
  .data i (s.setReg x b).v s.index s.byteSource s.draws

theorem Effect.of_setReg_setReg {s : State} (i : Instr) (x y : Reg) (a b : Byte) :
    Effect s i ((s.setReg x a).setReg y b) :=
  .data i ((s.setReg x a).setReg y b).v s.index s.byteSource s.draws

theorem Effect.of_setRegs {s : State} (i : Instr) (bytes : List Byte) : Effect s i (s.setRegs 0 bytes) := by
  obtain ⟨v, hv⟩ := setRegs_eq bytes s 0
  exact hv ▸ .data i v s.index s.byteSource s.draws

theorem Effect.of_drawByte {s : State} (i : Instr) (x : Reg) (b : Byte) : Effect s i ((drawByte s).2.setReg x b) := by
  obtain ⟨source, k, hdraw⟩ := drawByte_eq s
  exact hdraw ▸ .data i (s.setReg x b).v s.index source k

/-- Every answer of an instruction is one of these effects. -/
theorem exec_effect {i : Instr} {s t : State} (h : exec i s = .next t) : Effect s i t := by
  cases i
  case ret =>
    obtain ⟨a, rest, hentry, rfl⟩ | ⟨hempty, rfl⟩ := execRet_cases h
    · exact .ret a rest hentry
    · exact .fault _ _ (.underflow hempty)
  case call nnn =>
    obtain ⟨hroom, rfl⟩ | ⟨hfull, rfl⟩ := execCall_cases h
    · exact .call nnn hroom
    · exact .fault _ _ (.overflow nnn hfull)
  case drwVxVyN x y n =>
    obtain ⟨-, d, -, rfl⟩ | ⟨hn, hout, rfl⟩ := execDrw_cases h
    · exact .draw x y n (s.setReg regF (flagByte d.2)).v d.1
    · exact .fault _ _ (.range (.inl ⟨x, y, n, rfl, hn, rfl⟩) hout)
  case ldBVx x =>
    obtain ⟨hrange, rfl⟩ | ⟨hout, rfl⟩ := execLdB_cases h
    · exact .bcd x hrange
    · exact .fault _ _ (.range (.inr (.inl ⟨x, rfl, rfl⟩)) hout)
  case ldMemVx x =>
    obtain ⟨hrange, rfl⟩ | ⟨hout, rfl⟩ := execLdMem_cases h
    · exact .store x hrange
    · exact .fault _ _ (.range (.inr (.inr (.inl ⟨x, rfl, rfl⟩))) hout)
  case ldVxMem x =>
    obtain ⟨-, rfl⟩ | ⟨hout, rfl⟩ := execLdVxMem_cases h
    · exact .of_setRegs _ _
    · exact .fault _ _ (.range (.inr (.inr (.inr ⟨x, rfl, rfl⟩))) hout)
  -- the other 28 have one answer
  all_goals obtain rfl := next_inj h
  case cls => exact .clear
  case jp nnn => exact .jump _ _ (by rw [zextImm12_toNat]; omega)
  case jpV0Nnn nnn => exact .jump _ _ (by rw [zextByte_add_zextImm12_toNat]; omega)
  case ldFVx x => exact .font x _
  case ldDTVx x => exact .setDT x _
  case ldSTVx x => exact .setST x _
  case ldVxK x => exact .wait x
  case ldINnn | addIVx => exact .data _ s.v _ s.byteSource s.draws
  case seVxNn | sneVxNn | seVxVy | sneVxVy | skpVx | sknpVx => exact .of_skipIf _ _
  case rndVxNn => exact .of_drawByte _ _ _
  case addVxVy | subVxVy | shrVx | subnVxVy | shlVx => exact .of_setReg_setReg _ _ _ _ _
  all_goals exact .of_setReg _ _ _

/-! ### The effects of the other transactions -/

/-- The effects of a transaction other than the cycle, by kind. -/
inductive OuterEffect (s : State) : Transaction → State → Prop where
  | tick : OuterEffect s .updateTimers (updateTimers s)
  | press (c : Key) : OuterEffect s (.onKeyPressed c) (setKey s c true)
  | release (c : Key) (hnone : ∀ r, s.status ≠ .waitingForKey r) : OuterEffect s (.onKeyReleased c) (setKey s c false)
  | endWait (c : Key) (r : Reg) (hwait : s.status = .waitingForKey r) :
      OuterEffect s (.onKeyReleased c) { (setKey s c false).setReg r (BitVec.ofNat 8 c.val) with status := .running }
  | unmark : OuterEffect s .clearRedraw { s with redraw := false }
  | load (bytes : List Byte) (hfits : bytes.length ≤ maxProgramBytes) :
      OuterEffect s (.load bytes) { s with mem := Memory.writeBytes s.mem loadAddr bytes }
  | reject (bytes : List Byte) : OuterEffect s (.load bytes) { s with report := some .programTooLarge }
  | reset : OuterEffect s .reset (resetCore s)

theorem outerEffect_onKeyReleased (c : Key) (s : State) : OuterEffect s (.onKeyReleased c) (onKeyReleased c s) := by
  by_cases hwait : ∃ r, s.status = .waitingForKey r
  · obtain ⟨r, hr⟩ := hwait
    rw [onKeyReleased_of_waiting c hr]
    exact .endWait c r hr
  · have hnone := not_exists.mp hwait
    rw [onKeyReleased_of_not_waiting c hnone]
    exact .release c hnone

theorem outerEffect_load (bytes : List Byte) (s : State) : OuterEffect s (.load bytes) (load bytes s) := by
  obtain hfits | hlong := le_or_gt bytes.length maxProgramBytes
  · rw [load_of_fits s hfits]
    exact .load bytes hfits
  · rw [load_of_tooLong s hlong]
    exact .reject bytes

theorem perform_effect {a : Transaction} {s t : State} (ha : a ≠ .cycle) (h : perform a s = .next t) :
    OuterEffect s a t := by
  cases a with
  | cycle => exact absurd rfl ha
  | updateTimers => exact next_inj h ▸ .tick
  | onKeyPressed c => exact next_inj h ▸ .press c
  | onKeyReleased c => exact next_inj h ▸ outerEffect_onKeyReleased c s
  | clearRedraw => exact next_inj h ▸ .unmark
  | load bytes => exact next_inj h ▸ outerEffect_load bytes s
  | reset => exact next_inj h ▸ .reset

/-! ### The effects of a step -/

/-- The effects of a step, by kind. -/
inductive StepEffect (s : State) : State → Prop where
  | outer {t : State} (h : OuterEffect (beginTransaction s) (nextTransaction s) t) : StepEffect s t
  | gated (hstatus : s.status ≠ .running) : StepEffect s (beginTransaction s)
  | fetchFault (hout : 0xFFF < s.pc.toNat + 1) :
      StepEffect s (faultState (.memoryOutOfBounds (max s.pc.toNat 0x1000)) (beginTransaction s))
  | unknown (hexec : CycleExecutes s) :
      StepEffect s { afterFetch s with report := some (.unknownOpcode (wordAtPc s)) }
  | instr {t : State} (hexec : CycleExecutes s) (i : Instr) (hi : decodeWord (wordAtPc s) = .ok i)
      (h : Effect (afterFetch s) i t) : StepEffect s t

theorem step_effect {s t : State} (h : step s = .next t) : StepEffect s t := by
  obtain ⟨hother, hs⟩ | ⟨-, hstatus, hs⟩ | ⟨-, -, hout, hs⟩ | ⟨hexec, hs⟩ := step_cases s <;> rw [hs] at h
  · exact .outer (perform_effect hother h)
  · exact next_inj h ▸ .gated hstatus
  · exact next_inj h ▸ .fetchFault hout
  · unfold executeWord at h
    split at h
    next i hi => exact .instr hexec i hi (exec_effect h)
    next => exact next_inj h ▸ .unknown hexec

/-- A fact about the state that the fetch, the faults and the reports do not write. -/
def IsOutsideFetch {α : Type} (f : State → α) : Prop :=
  ∀ (u : State) (pc last : Word) (status : Status) (report : Option Report) (schedule : List Transaction),
    f { u with pc := pc, lastOpcode := last, status := status, report := report, schedule := schedule } = f u

/-- Such a fact changes in a step only by a transaction that can change it, or by an instruction that can, executed in that
step's cycle. -/
theorem step_change {α : Type} {f : State → α} {byOuter : Transaction → Prop}
    {byInstr : State → Instr → State → Prop} (hf : IsOutsideFetch f)
    (houter : ∀ {s a t}, OuterEffect s a t → f t = f s ∨ byOuter a)
    (hinstr : ∀ {s i t}, Effect s i t → f t = f s ∨ byInstr s i t) {s t : State} (h : step s = .next t)
    (hne : f t ≠ f s) :
    byOuter (nextTransaction s) ∨
      (CycleExecutes s ∧ ∃ i, decodeWord (wordAtPc s) = .ok i ∧ byInstr (afterFetch s) i t) := by
  have hbegin : f (beginTransaction s) = f s := hf s s.pc s.lastOpcode s.status none s.schedule.tail
  have hfetch : f (afterFetch s) = f s := hf s (s.pc + 2) (wordAtPc s) s.status none s.schedule.tail
  cases step_effect h with
  | outer h => exact .inl ((houter h).resolve_left fun heq => hne (heq.trans hbegin))
  | gated => exact absurd hbegin hne
  | fetchFault => exact absurd (hf s s.pc s.lastOpcode _ _ s.schedule.tail) hne
  | unknown => exact absurd (hf s (s.pc + 2) (wordAtPc s) s.status _ s.schedule.tail) hne
  | instr hexec i hi h => exact .inr ⟨hexec, i, hi, (hinstr h).resolve_left fun heq => hne (heq.trans hfetch)⟩

end Sys2Proof.Machine
end

section
/-! PROOFS. The rules of the whole machine (R38, R42, R43, R65, R67, R149, R219, R267, R278), read off the effects: which
transaction and which instruction writes which piece of state. -/

namespace Sys2Proof.Machine

/-! ### The timers (R42, R43) -/

theorem OuterEffect.timers {s t : State} {a : Transaction} (h : OuterEffect s a t) :
    (t.dt = s.dt ∧ t.st = s.st) ∨ a = .updateTimers ∨ a = .reset := by
  cases h with
  | tick => exact .inr (.inl rfl)
  | reset => exact .inr (.inr rfl)
  | _ => exact .inl ⟨rfl, rfl⟩

theorem Effect.dt {s t : State} {i : Instr} (h : Effect s i t) : t.dt = s.dt ∨ ∃ x, i = .ldDTVx x := by
  cases h with
  | setDT x b => exact .inr ⟨x, rfl⟩
  | _ => exact .inl rfl

theorem Effect.st {s t : State} {i : Instr} (h : Effect s i t) : t.st = s.st ∨ ∃ x, i = .ldSTVx x := by
  cases h with
  | setST x b => exact .inr ⟨x, rfl⟩
  | _ => exact .inl rfl

/-- Settles O50: a tick and reset apart, no transaction writes a timer, and of the instructions only the one that loads
it. -/
theorem timersChangeOnlyByTickOrLoad : Obligations.TimersChangeOnlyByTickOrLoad := by
  intro s t h htick hreset
  have hneither : ¬ (nextTransaction s = .updateTimers ∨ nextTransaction s = .reset) := not_or.mpr ⟨htick, hreset⟩
  constructor
  · intro hne
    obtain houter | ⟨hexec, i, hi, x, rfl⟩ := step_change (f := State.dt) (fun _ _ _ _ _ _ => rfl)
      (fun h => h.timers.imp_left And.left) Effect.dt h hne
    · exact absurd houter hneither
    · exact ⟨hexec, x, hi⟩
  · intro hne
    obtain houter | ⟨hexec, i, hi, x, rfl⟩ := step_change (f := State.st) (fun _ _ _ _ _ _ => rfl)
      (fun h => h.timers.imp_left And.right) Effect.st h hne
    · exact absurd houter hneither
    · exact ⟨hexec, x, hi⟩

/-! ### The pixels and the redraw flag (R38, R219) -/

theorem OuterEffect.pix {s t : State} {a : Transaction} (h : OuterEffect s a t) : t.pix = s.pix ∨ a = .reset := by
  cases h with
  | reset => exact .inr rfl
  | _ => exact .inl rfl

/-- The instructions that write the pixel buffer (R210, R212). -/
def WritesPixels (i : Instr) : Prop := i = .cls ∨ ∃ x y n, i = .drwVxVyN x y n

theorem Effect.pix {s t : State} {i : Instr} (h : Effect s i t) : t.pix = s.pix ∨ WritesPixels i := by
  cases h with
  | clear => exact .inr (.inl rfl)
  | draw x y n v p => exact .inr (.inr ⟨x, y, n, rfl⟩)
  | _ => exact .inl rfl

/-- Settles O51: reset apart, no transaction writes the buffer, and of the instructions only the two. -/
theorem pixelsChangeOnlyByClsDrwReset : Obligations.PixelsChangeOnlyByClsDrwReset := by
  intro s t h hne
  obtain hreset | ⟨hexec, i, hi, hwrites⟩ := step_change (f := State.pix) (fun _ _ _ _ _ _ => rfl)
    OuterEffect.pix Effect.pix h hne
  · exact .inl hreset
  · obtain rfl | ⟨x, y, n, rfl⟩ := hwrites
    · exact .inr ⟨hexec, .inl hi⟩
    · exact .inr ⟨hexec, .inr ⟨x, y, n, hi⟩⟩

/-- Settles O52: a step that does not keep the flag clears it or marks it, each in its own ways. -/
theorem redrawFlagChangesOnlyAsMarked : Obligations.RedrawFlagChangesOnlyAsMarked := by
  intro s t h hne
  obtain hkept | hcleared | ⟨hset, hexec, i, hi, hmarks⟩ := step_redraw_cases h
  · exact absurd hkept hne
  · exact .inl hcleared
  · refine .inr ⟨hset, hexec, ?_⟩
    obtain rfl | ⟨x, y, n, rfl⟩ | ⟨x, rfl⟩ := hmarks
    · exact .inl hi
    · exact .inr (.inl ⟨x, y, n, hi⟩)
    · exact .inr (.inr ⟨x, hi⟩)

/-! ### The call stack (R149) -/

theorem OuterEffect.stack {s t : State} {a : Transaction} (h : OuterEffect s a t) : t.stack = s.stack ∨ a = .reset := by
  cases h with
  | reset => exact .inr rfl
  | _ => exact .inl rfl

/-- What CALL and RET do to the stack, PC being the advanced one. -/
def MovesStack (s : State) (i : Instr) (t : State) : Prop :=
  (∃ nnn, i = .call nnn ∧ t.stack = (s.pc - 2) :: s.stack) ∨ (i = .ret ∧ ∃ a, s.stack = a :: t.stack ∧ t.pc = a + 2)

theorem Effect.stack {s t : State} {i : Instr} (h : Effect s i t) : t.stack = s.stack ∨ MovesStack s i t := by
  cases h with
  | call nnn hroom => exact .inr (.inl ⟨nnn, rfl, rfl⟩)
  | ret a rest hentry => exact .inr (.inr ⟨rfl, a, hentry, rfl⟩)
  | _ => exact .inl rfl

/-- Settles O53: reset apart, no transaction moves the stack, and of the instructions only CALL and RET; the address pushed
is that of the CALL because the fetch advanced PC by 2. -/
theorem stackChangesOnlyByCallRetReset : Obligations.StackChangesOnlyByCallRetReset := by
  intro s t h hne
  obtain hreset | ⟨hexec, i, hi, ⟨nnn, rfl, hpush⟩ | ⟨rfl, hpop⟩⟩ := step_change (f := State.stack)
    (fun _ _ _ _ _ _ => rfl) OuterEffect.stack Effect.stack h hne
  · exact .inl hreset
  · have hcaller : (afterFetch s).pc - 2 = s.pc := BitVec.add_sub_cancel s.pc 2
    rw [hcaller] at hpush
    exact .inr (.inl ⟨hexec, nnn, hi, hpush⟩)
  · exact .inr (.inr ⟨hexec, hi, hpop⟩)

/-! ### Memory (R65, R67) -/

/-- An address that reads differently after a store is one of the store's. -/
theorem Memory.mem_range_of_read_writeBytes_ne {m : Memory} {base a : Nat} {bytes : List Byte}
    (h : Memory.read (Memory.writeBytes m base bytes) a ≠ Memory.read m a) : base ≤ a ∧ a < base + bytes.length := by
  by_contra hout
  exact h (Memory.read_writeBytes_outside bytes m base (by omega))

/-- The ways another transaction can change the byte at `a`. -/
def OuterStores (a : Nat) (tr : Transaction) : Prop :=
  tr = .reset ∨ ∃ bytes, tr = .load bytes ∧ 0x200 ≤ a ∧ a ≤ 0xFFF

theorem OuterEffect.read {s t : State} {tr : Transaction} (a : Nat) (h : OuterEffect s tr t) :
    Memory.read t.mem a = Memory.read s.mem a ∨ OuterStores a tr := by
  cases h with
  | reset => exact .inr (.inl rfl)
  | load bytes hfits =>
    refine or_iff_not_imp_left.mpr fun hne => .inr ⟨bytes, rfl, ?_⟩
    have hin := Memory.mem_range_of_read_writeBytes_ne hne
    rw [loadAddr] at hin
    rw [maxProgramBytes] at hfits
    omega
  | _ => exact .inl rfl

/-- The ways an instruction can change the byte at `a`. -/
def InstrStores (a : Nat) (s : State) (i : Instr) : Prop :=
  (∃ x, i = .ldBVx x ∧ dataAddr s 0 ≤ a ∧ a ≤ dataAddr s 2 ∧ a ≤ 0xFFF) ∨
    ∃ x, i = .ldMemVx x ∧ dataAddr s 0 ≤ a ∧ a ≤ dataAddr s x.val ∧ a ≤ 0xFFF

theorem Effect.read {s t : State} {i : Instr} (a : Nat) (h : Effect s i t) :
    Memory.read t.mem a = Memory.read s.mem a ∨ InstrStores a s i := by
  cases h with
  | bcd x hrange =>
    refine or_iff_not_imp_left.mpr fun hne => .inl ⟨x, rfl, ?_⟩
    have hin := Memory.mem_range_of_read_writeBytes_ne hne
    rw [length_bcdDigits] at hin
    rw [dataAddr_eq_add s 2] at *
    omega
  | store x hrange =>
    refine or_iff_not_imp_left.mpr fun hne => .inr ⟨x, rfl, ?_⟩
    have hin := Memory.mem_range_of_read_writeBytes_ne hne
    rw [length_blockRegs] at hin
    rw [dataAddr_eq_add s x.val] at *
    omega
  | _ => exact .inl rfl

/-- Settles O54: load and reset apart, no transaction writes memory, and of the instructions only the two stores, inside
their checked block. -/
theorem memoryChangesOnlyByStoresLoadReset : Obligations.MemoryChangesOnlyByStoresLoadReset := by
  intro s t a h hne
  obtain houter | ⟨hexec, i, hi, hstores⟩ := step_change (f := fun u => Memory.read u.mem a) (fun _ _ _ _ _ _ => rfl)
    (OuterEffect.read a) (Effect.read a) h hne
  · exact houter.imp_right .inl
  · obtain ⟨x, rfl, hblock⟩ | ⟨x, rfl, hblock⟩ := hstores
    · exact .inr (.inr (.inl ⟨hexec, x, hi, hblock⟩))
    · exact .inr (.inr (.inr ⟨hexec, x, hi, hblock⟩))

/-! ### Fatal errors (R267, R278) -/

theorem Effect.status {s t : State} {i : Instr} (h : Effect s i t) :
    t.status = s.status ∨ (∃ x, t.status = .waitingForKey x) ∨ ∃ e, t.status = .faulted e ∧ Raises s i e := by
  cases h with
  | wait x => exact .inr (.inl ⟨x, rfl⟩)
  | fault i e hraises => exact .inr (.inr ⟨e, rfl, hraises⟩)
  | _ => exact .inl rfl

/-- Settles O55: an instruction keeps the status, enters a wait, or raises an error on its condition. -/
theorem onlyTheseInstructionsFault : Obligations.OnlyTheseInstructionsFault := by
  intro s t i e hrun h hfault
  obtain hkept | ⟨x, hwait⟩ | ⟨e', hfault', hraises⟩ := (exec_effect h).status
  · cases hfault.symm.trans (hkept.trans hrun)
  · cases hfault.symm.trans hwait
  · obtain rfl : e = e' := Status.faulted.inj (hfault.symm.trans hfault')
    cases hraises with
    | underflow hempty => exact .inl ⟨rfl, hempty, rfl⟩
    | overflow nnn hfull => exact .inr (.inl ⟨nnn, rfl, hfull, rfl⟩)
    | range hi hout => exact .inr (.inr ⟨_, hout, rfl, hi⟩)

/-- Settles O49: a faulted machine does not run, and has no wait for a release to end. -/
theorem faultIsLeftOnlyByReset : Obligations.FaultIsLeftOnlyByReset := by
  intro s t e hfault h hreset
  have hcpu := step_cpuView_of_not_running h (by simp [hfault]) hreset (by simp [hfault])
  obtain ⟨hstatus, hpc, hlatch, hstack, hindex, hpix, hv⟩ := CpuView.mk.inj hcpu
  exact ⟨hstatus.trans hfault, hpc, hlatch, hstack, hindex, hpix, reg_of_v_eq hv⟩

end Sys2Proof.Machine
end

section
/-! PROOFS. The machine's invariant (spec/10_state.md sections 2, 5 and 11): the reset state meets it, and every effect of a
step keeps it. -/

namespace Sys2Proof.Machine

/-- Settles O56: the stack is empty, memory lists nothing, PC is 0x200 and no fault is recorded. -/
theorem resetMeetsInvariant : Obligations.ResetMeetsInvariant where
  mem_canonical := Memory.wf_reset
  stack_bounded := Nat.zero_le _
  stack_entries := fun _ h => nomatch h
  pc_bounded := by decide
  fault_addr := fun _ h => nomatch h
  depth_positive := rfl

/-! ### What the effects share -/

theorem State.Inv.beginTransaction {s : State} (h : s.Inv) : (beginTransaction s).Inv := { h with }

/-- A store inside the machine's addresses keeps the invariant. -/
theorem State.Inv.writeBytes {s : State} (h : s.Inv) {base : Nat} {bytes : List Byte}
    (hrange : base + bytes.length ≤ 0x1000) : ({ s with mem := Memory.writeBytes s.mem base bytes } : State).Inv :=
  { h with mem_canonical := Memory.wf_writeBytes base bytes h.mem_canonical hrange }

/-- A recorded error keeps the invariant when the address it carries, if any, is an invalid one. -/
theorem State.Inv.faultState {s : State} {e : FatalError} (h : s.Inv)
    (he : ∀ a, e = .memoryOutOfBounds a → 0x1000 ≤ a) : (faultState e s).Inv :=
  { h with fault_addr := fun a ha => he a (Status.faulted.inj ha) }

theorem Raises.invalid_addr {s : State} {i : Instr} {e : FatalError} (h : Raises s i e) {a : Nat}
    (ha : e = .memoryOutOfBounds a) : 0x1000 ≤ a := by
  cases h with
  | underflow => cases ha
  | overflow => cases ha
  | range => exact FatalError.memoryOutOfBounds.inj ha ▸ Nat.le_max_right _ _

/-! ### The effects keep the invariant -/

theorem OuterEffect.inv {s t : State} {a : Transaction} (h : OuterEffect s a t) (hs : s.Inv) : t.Inv := by
  cases h with
  | tick => exact { hs with }
  | press => exact { hs with }
  | release => exact { hs with }
  | unmark => exact { hs with }
  | reject => exact { hs with }
  | endWait => exact { hs with fault_addr := fun _ h => nomatch h }
  | load bytes hfits => exact hs.writeBytes (Nat.add_le_of_le_sub' (by decide) hfits)
  | reset =>
    exact { resetMeetsInvariant with stack_bounded := Nat.zero_le _, depth_positive := hs.depth_positive }

/-- Where a fetch leaves PC (R122, R123). -/
theorem afterFetch_pc_toNat {s : State} (h : CycleExecutes s) :
    2 ≤ (afterFetch s).pc.toNat ∧ (afterFetch s).pc.toNat ≤ 0x1000 := by
  obtain ⟨-, -, hpc⟩ := h
  have hadvance : (afterFetch s).pc.toNat = (s.pc.toNat + 2) % 65536 := BitVec.toNat_add s.pc 2
  omega

theorem State.Inv.afterFetch {s : State} (hs : s.Inv) (h : CycleExecutes s) : (afterFetch s).Inv :=
  { hs with pc_bounded := Nat.le_trans (afterFetch_pc_toNat h).2 (by decide) }

/-- An instruction keeps the invariant where PC is one that a fetch leaves: a skip stays below the bound, and a CALL pushes
the address of a fetched word (R35). -/
theorem Effect.inv {s t : State} {i : Instr} (h : Effect s i t) (hs : s.Inv)
    (hpc : 2 ≤ s.pc.toNat ∧ s.pc.toNat ≤ 0x1000) : t.Inv := by
  cases h with
  | data => exact { hs with }
  | clear => exact { hs with }
  | draw => exact { hs with }
  | font => exact { hs with }
  | setDT => exact { hs with }
  | setST => exact { hs with }
  | wait => exact { hs with fault_addr := fun _ h => nomatch h }
  | skip i c =>
    have hskip : (s.pc + 2).toNat = (s.pc.toNat + 2) % 65536 := BitVec.toNat_add s.pc 2
    refine { hs with pc_bounded := ?_ }
    cases c <;> simp only [Bool.false_eq_true, if_false, if_true] <;> omega
  | jump i a ha => exact { hs with pc_bounded := ha }
  | call nnn hroom =>
    have hcaller : (s.pc - 2).toNat = (65536 - 2 + s.pc.toNat) % 65536 := BitVec.toNat_sub s.pc 2
    have hentry : (s.pc - 2).toNat ≤ 0xFFE := by omega
    have htarget : (zextImm12 nnn).toNat ≤ 0x10FE := by rw [zextImm12_toNat]; omega
    exact { hs with
      stack_bounded := hroom
      stack_entries := List.forall_mem_cons.mpr ⟨hentry, hs.stack_entries⟩
      pc_bounded := htarget }
  | ret a rest hentry =>
    have hbound := hs.stack_bounded
    have hentries := hs.stack_entries
    rw [hentry] at hbound hentries
    obtain ⟨ha, hrest⟩ := List.forall_mem_cons.mp hentries
    have hreturn : (a + 2).toNat = (a.toNat + 2) % 65536 := BitVec.toNat_add a 2
    have hpast : (a + 2).toNat ≤ 0x10FE := by omega
    exact { hs with stack_bounded := Nat.le_of_succ_le hbound, stack_entries := hrest, pc_bounded := hpast }
  | bcd x hrange => exact hs.writeBytes (Nat.succ_le_succ hrange)
  | store x hrange => exact hs.writeBytes (by rw [length_blockRegs]; exact Nat.succ_le_succ hrange)
  | fault i e hraises => exact hs.faultState fun _ => hraises.invalid_addr

/-- Settles O57: whatever the effect of the step, it keeps the invariant. -/
theorem stepKeepsInvariant : Obligations.StepKeepsInvariant := by
  intro s t hs h
  cases step_effect h with
  | outer h => exact h.inv hs.beginTransaction
  | gated => exact hs.beginTransaction
  | fetchFault =>
    exact hs.beginTransaction.faultState fun _ ha => FatalError.memoryOutOfBounds.inj ha ▸ Nat.le_max_right _ _
  | unknown hexec => exact { hs.afterFetch hexec with }
  | instr hexec i hi h => exact h.inv (hs.afterFetch hexec) (afterFetch_pc_toNat hexec)

end Sys2Proof.Machine
end

section
/-! PROOFS. What a program cannot observe (spec/10_state.md section 7, R41): two machines that differ in ST, the redraw flag
and the last-opcode latch alone answer alike, operation by operation. -/

namespace Sys2Proof.Machine

/-! ### Machines that differ in the unobservable pieces -/

/-- The pieces of state no instruction reads. -/
structure Unobserved where
  st : Byte
  redraw : Bool
  lastOpcode : Word

/-- The machine with other unobservable pieces. -/
def State.withUnobserved (s : State) (u : Unobserved) : State :=
  { s with st := u.st, redraw := u.redraw, lastOpcode := u.lastOpcode }

/-- Two results that are next states and differ in the unobservable pieces alone. -/
def Alike (r r' : Result) : Prop := ∃ t u, r = .next t ∧ r' = .next (t.withUnobserved u)

/-- The results of one instruction on the two machines. -/
abbrev ExecAlike (i : Instr) (s : State) (u : Unobserved) : Prop := Alike (exec i s) (exec i (s.withUnobserved u))

theorem alike_raiseFatal (e : FatalError) (s : State) (u : Unobserved) :
    Alike (raiseFatal e s) (raiseFatal e (s.withUnobserved u)) :=
  ⟨_, u, rfl, rfl⟩

theorem alike_skipIf (c : Bool) (s : State) (u : Unobserved) :
    Alike (.next (skipIf c s)) (.next (skipIf c (s.withUnobserved u))) := by
  rw [skipIf_eq, skipIf_eq]
  exact ⟨_, u, rfl, rfl⟩

theorem setRegs_withUnobserved (bytes : List Byte) (s : State) (u : Unobserved) (i : Nat) :
    (s.withUnobserved u).setRegs i bytes = (s.setRegs i bytes).withUnobserved u := by
  induction bytes generalizing s i with
  | nil => rfl
  | cons b bytes ih =>
    unfold State.setRegs
    split
    · exact ih (s.setReg _ b) (i + 1)
    · rfl

/-! ### The instructions with more than one answer

Each is decided by what the two machines have in common, so both take the same one. -/

section
variable (s : State) (u : Unobserved)

theorem alike_exec_ret : ExecAlike .ret s u := by
  cases hstack : s.stack with
  | nil =>
    exact ⟨_, u, exec_ret_of_empty hstack, exec_ret_of_empty (s := s.withUnobserved u) hstack⟩
  | cons a rest =>
    exact ⟨_, u, exec_ret_of_entry hstack, exec_ret_of_entry (s := s.withUnobserved u) hstack⟩

theorem alike_exec_call (nnn : Imm12) : ExecAlike (.call nnn) s u := by
  obtain hroom | hfull := Nat.lt_or_ge s.stack.length s.config.stackDepth
  · exact ⟨_, u, exec_call_of_room nnn hroom, exec_call_of_room (s := s.withUnobserved u) nnn hroom⟩
  · exact ⟨_, u, exec_call_of_full nnn hfull, exec_call_of_full (s := s.withUnobserved u) nnn hfull⟩

theorem alike_exec_rndVxNn (x : Reg) (nn : Byte) : ExecAlike (.rndVxNn x nn) s u := by
  rw [ExecAlike, exec_rndVxNn, exec_rndVxNn]
  cases hsource : s.byteSource with
  | nil =>
    rw [drawByte_of_free hsource, drawByte_of_free (s := s.withUnobserved u) hsource]
    exact ⟨_, u, rfl, rfl⟩
  | cons b rest =>
    rw [drawByte_of_supplied hsource, drawByte_of_supplied (s := s.withUnobserved u) hsource]
    exact ⟨_, u, rfl, rfl⟩

theorem alike_exec_drwVxVyN (x y : Reg) (n : Nibble) : ExecAlike (.drwVxVyN x y n) s u := by
  by_cases hrange : SpriteInRange s n
  · exact ⟨_, { u with redraw := true }, exec_drwVxVyN_of_inRange hrange,
      exec_drwVxVyN_of_inRange (s := s.withUnobserved u) hrange⟩
  · obtain ⟨hn, hout⟩ := not_or.mp hrange
    have hpos := Nat.pos_of_ne_zero hn
    have hlast := Nat.lt_of_not_le hout
    exact ⟨_, u, exec_drwVxVyN_of_outOfRange hpos hlast,
      exec_drwVxVyN_of_outOfRange (s := s.withUnobserved u) hpos hlast⟩

theorem alike_exec_ldBVx (x : Reg) : ExecAlike (.ldBVx x) s u := by
  obtain hrange | hout := le_or_gt (dataAddr s 2) 0xFFF
  · exact ⟨_, u, exec_ldBVx_of_inRange hrange, exec_ldBVx_of_inRange (s := s.withUnobserved u) hrange⟩
  · exact ⟨_, u, exec_ldBVx_of_outOfRange hout, exec_ldBVx_of_outOfRange (s := s.withUnobserved u) hout⟩

theorem alike_exec_ldMemVx (x : Reg) : ExecAlike (.ldMemVx x) s u := by
  obtain hrange | hout := le_or_gt (dataAddr s x.val) 0xFFF
  · exact ⟨_, u, exec_ldMemVx_of_inRange hrange, exec_ldMemVx_of_inRange (s := s.withUnobserved u) hrange⟩
  · exact ⟨_, u, exec_ldMemVx_of_outOfRange hout, exec_ldMemVx_of_outOfRange (s := s.withUnobserved u) hout⟩

theorem alike_exec_ldVxMem (x : Reg) : ExecAlike (.ldVxMem x) s u := by
  obtain hrange | hout := le_or_gt (dataAddr s x.val) 0xFFF
  · refine ⟨_, u, exec_ldVxMem_of_inRange hrange, ?_⟩
    rw [exec_ldVxMem_of_inRange (s := s.withUnobserved u) hrange, setRegs_withUnobserved]
    rfl
  · exact ⟨_, u, exec_ldVxMem_of_outOfRange hout, exec_ldVxMem_of_outOfRange (s := s.withUnobserved u) hout⟩

end

/-! ### Every instruction, transaction and step -/

theorem alike_exec (i : Instr) (s : State) (u : Unobserved) : ExecAlike i s u := by
  cases i
  case ret => exact alike_exec_ret s u
  case call nnn => exact alike_exec_call s u nnn
  case rndVxNn x nn => exact alike_exec_rndVxNn s u x nn
  case drwVxVyN x y n => exact alike_exec_drwVxVyN s u x y n
  case ldBVx x => exact alike_exec_ldBVx s u x
  case ldMemVx x => exact alike_exec_ldMemVx s u x
  case ldVxMem x => exact alike_exec_ldVxMem s u x
  case seVxNn | sneVxNn | seVxVy | sneVxVy | skpVx | sknpVx => exact alike_skipIf _ s u
  -- the three that write an unobservable piece write the same one on both machines
  case cls | ldFVx => exact ⟨_, { u with redraw := true }, rfl, rfl⟩
  case ldSTVx x => exact ⟨_, { u with st := s.reg x }, rfl, rfl⟩
  all_goals exact ⟨_, u, rfl, rfl⟩

theorem alike_executeWord (w : Word) (s : State) (u : Unobserved) :
    Alike (executeWord w s) (executeWord w (s.withUnobserved u)) := by
  unfold executeWord
  split
  · exact alike_exec _ s u
  · exact ⟨_, u, rfl, rfl⟩

/-- The fetch reads PC and memory, which the machines have in common, and latches the same word on both. -/
theorem alike_cycle (s : State) (u : Unobserved) : Alike (cycle s) (cycle (s.withUnobserved u)) := by
  have hstatus : (s.withUnobserved u).status = s.status := rfl
  have hfetch : fetch (s.withUnobserved u) = fetch s := rfl
  unfold cycle
  rw [hstatus, hfetch]
  cases s.status with
  | running =>
    cases fetch s with
    | error e => exact alike_raiseFatal e s u
    | ok w => exact alike_executeWord w (advance w s) { u with lastOpcode := w }
  | waitingForKey r => exact ⟨_, u, rfl, rfl⟩
  | faulted e => exact ⟨_, u, rfl, rfl⟩

theorem alike_onKeyReleased (c : Key) (s : State) (u : Unobserved) :
    Alike (.next (onKeyReleased c s)) (.next (onKeyReleased c (s.withUnobserved u))) := by
  by_cases hwait : ∃ r, s.status = .waitingForKey r
  · obtain ⟨r, hr⟩ := hwait
    rw [onKeyReleased_of_waiting c hr, onKeyReleased_of_waiting (s := s.withUnobserved u) c hr]
    exact ⟨_, u, rfl, rfl⟩
  · have hnone := not_exists.mp hwait
    rw [onKeyReleased_of_not_waiting c hnone, onKeyReleased_of_not_waiting (s := s.withUnobserved u) c hnone]
    exact ⟨_, u, rfl, rfl⟩

theorem alike_load (bytes : List Byte) (s : State) (u : Unobserved) :
    Alike (.next (load bytes s)) (.next (load bytes (s.withUnobserved u))) := by
  obtain hfits | hlong := le_or_gt bytes.length maxProgramBytes
  · rw [load_of_fits _ hfits, load_of_fits _ hfits]
    exact ⟨_, u, rfl, rfl⟩
  · rw [load_of_tooLong _ hlong, load_of_tooLong _ hlong]
    exact ⟨_, u, rfl, rfl⟩

theorem alike_perform (a : Transaction) (s : State) (u : Unobserved) :
    Alike (perform a s) (perform a (s.withUnobserved u)) := by
  cases a with
  | cycle => exact alike_cycle s u
  | updateTimers => exact ⟨_, { u with st := countDown u.st }, rfl, rfl⟩
  | onKeyPressed c => exact ⟨_, u, rfl, rfl⟩
  | onKeyReleased c => exact alike_onKeyReleased c s u
  | clearRedraw => exact ⟨_, { u with redraw := false }, rfl, rfl⟩
  | load bytes => exact alike_load bytes s u
  | reset => exact ⟨_, ⟨0, false, 0⟩, rfl, rfl⟩

/-- Settles O58: both machines perform the same transaction, and it answers alike. -/
theorem unobservableStateStaysUnobserved : Obligations.UnobservableStateStaysUnobserved := by
  intro s st redraw last
  obtain ⟨t, u, ht, ht'⟩ := alike_perform (nextTransaction s) (beginTransaction s) ⟨st, redraw, last⟩
  exact ⟨t, t.withUnobserved u, ht, ht', rfl⟩

end Sys2Proof.Machine
end
